-- ==== Sys2Proof/Word.lean ====
section
/-! DEFINITION. The byte and the word of the machine (spec/00_scope.md R9: "A "byte" is 8 bits", "A "word" in this
spec is 32 bits"). -/

namespace Sys2Proof

/-- The smallest addressable unit of memory: 8 bits (R9). -/
abbrev Byte := BitVec 8

/-- A register, the program counter, an address operand or an immediate: 32 bits (R5, R6, R9). -/
abbrev Word := BitVec 32

end Sys2Proof
end

