-- ==== Sys2Proof/Config.lean ====
section
/-! DEFINITION. The implementation parameters the spec leaves open (spec/00_scope.md section 4): `MEM_SIZE`, `MOVW` and
`UNKNOWN_ENC`. A machine carries them in its state, where no step changes them, so that a statement about every state is
a statement about every value of the parameters (notes/assumptions/2.md). The defaults stand in Machine/Defaults.lean. -/

namespace Sys2Proof

/-- `MOVW`, the number of bytes the three MOV forms that touch memory move (R7): 1 or 4. -/
inductive MovWidth where
  | one
  | four
  deriving DecidableEq, Repr

/-- The number of bytes `MOVW` stands for (R7). -/
def MovWidth.bytes : MovWidth → Nat
  | .one => 1
  | .four => 4

/-- `UNKNOWN_ENC`, what a header with an unknown opcode or submode nibble does (R8). -/
inductive UnknownEnc where
  | fault
  | spin
  deriving DecidableEq, Repr

/-- The open parameters of spec/00_scope.md section 4. -/
structure Config where
  /-- `MEM_SIZE`: the number of bytes of memory (R3). -/
  memSize : Nat
  /-- `MOVW` (R7). -/
  movw : MovWidth
  /-- `UNKNOWN_ENC` (R8). -/
  unknownEnc : UnknownEnc
  deriving DecidableEq, Repr

/-- The constraint R3 puts on `MEM_SIZE`: "`1 <= MEM_SIZE <= 2^32 - 9`". -/
abbrev Config.wf (c : Config) : Prop :=
  1 ≤ c.memSize ∧ c.memSize ≤ 2 ^ 32 - 9

end Sys2Proof
end

