-- ==== Sys2Proof/Machine/Defaults.lean ====
section
/-! DEFINITION. The defaults of the open parameters, which the machine after reset is given (spec/00_scope.md
section 4). No statement about every state rests on them (notes/assumptions/2.md). -/

namespace Sys2Proof.Machine

/-- `MEM_SIZE = 65535` (R3), `MOVW = 1` (R7), `UNKNOWN_ENC = fault` (R8). -/
def defaultConfig : Config := { memSize := 65535, movw := .one, unknownEnc := .fault }

end Sys2Proof.Machine
end

