-- ==== Sys2Proof/Machine/Memory.lean ====
section
/-! DEFINITION. Memory as plain data: the bytes that differ from what an unlisted address reads as, by rising address
(spec/10_state.md R24, spec/20_memory.md R27). How many bytes there are is a parameter, and the bounds check stands in
Machine/Ops.lean. -/

namespace Sys2Proof.Machine

/-- The listed bytes of memory, addresses strictly rising. -/
abbrev Memory := List Host.Cell

/-- What an address that is not listed reads as. DESIGN CHOICE (notes/assumptions/1.md, unsafe where a claim rests on
it): the spec leaves bytes the host did not write unspecified (R25). A list of this form still stands for any content of
memory, so a statement about every memory is free of the choice. -/
def unlistedByte : Byte := 0#8

/-- The byte at an address, with no bounds check: `mem[a]` (R11). -/
def Memory.read : Memory → Nat → Byte
  | [], _ => unlistedByte
  | (k, v) :: m, a => if a = k then v else Memory.read m a

/-- `mem[a] <- b`, with no bounds check (R29), in canonical form: a byte equal to what an unlisted address reads as is
not listed. -/
def Memory.write : Memory → Nat → Byte → Memory
  | [], a, b => if b = unlistedByte then [] else [(a, b)]
  | (k, v) :: m, a, b =>
    if a < k then (if b = unlistedByte then (k, v) :: m else (a, b) :: (k, v) :: m)
    else if a = k then (if b = unlistedByte then m else (a, b) :: m)
    else (k, v) :: Memory.write m a b

/-- The bytes at `addr .. addr+n-1` (R28). -/
def Memory.readBytes (m : Memory) (addr n : Nat) : List Byte :=
  (List.range n).map fun i => m.read (addr + i)

/-- Bytes written at ascending addresses from `addr` on (R29). -/
def Memory.writeBytes : Memory → Nat → List Byte → Memory
  | m, _, [] => m
  | m, addr, b :: bs => Memory.writeBytes (m.write addr b) (addr + 1) bs

/-- The canonical form: addresses strictly rising, no entry equal to what an unlisted address reads as. -/
abbrev Memory.wf (m : Memory) : Prop :=
  m.Pairwise (fun c d => c.1 < d.1) ∧ ∀ c ∈ m, c.2 ≠ unlistedByte

/-- Every listed address lies below `n`. -/
abbrev Memory.within (n : Nat) (m : Memory) : Prop :=
  ∀ c ∈ m, c.1 < n

end Sys2Proof.Machine
end

