-- ==== Sys2Proof/Syntax.lean ====
section
/-! DEFINITION. Instructions as the decoder gives them: the two fields of a header byte (spec/30_encoding.md R43 to R45)
and one constructor per row of spec/opcode_table.json. A register operand is an unsigned index (R47), an address and an
immediate are 32 bits. -/

namespace Sys2Proof

/-- The five opcodes, in the order of their numbers 0 to 4 (R44). -/
inductive Opcode where
  | halt
  | inc
  | mov
  | cmp
  | jmpNe
  deriving DecidableEq, Repr

/-- The four transfer submodes, in the order of their numbers 0 to 3 (R45). Which of 1 and 2 reads memory is the spec's
decision D5, which it calls unverified (notes/assumptions/5.md). -/
inductive Submode where
  | regToReg
  | memToReg
  | regToMem
  | memToMem
  deriving DecidableEq, Repr

/-- A header byte that names an instruction: its opcode and its submode (R43). -/
structure Header where
  op : Opcode
  sm : Submode
  deriving DecidableEq, Repr

/-- One constructor per row of spec/opcode_table.json. A form that is no MOV keeps the submode of its header, which it
ignores (R50), so that an instruction determines its bytes (notes/assumptions/7.md). -/
inductive Instr where
  /-- HALT (R56). -/
  | halt (sm : Submode)
  /-- INC `r` (R58). -/
  | inc (sm : Submode) (r : Nat)
  /-- MOV submode 0, source register `a`, destination register `b` (R64). -/
  | movRR (a b : Nat)
  /-- MOV submode 1, memory at `a` to register `r` (R65). -/
  | movLoad (r : Nat) (a : Word)
  /-- MOV submode 2, register `r` to memory at `a` (R66). -/
  | movStore (r : Nat) (a : Word)
  /-- MOV submode 3, memory at `src` to memory at `d` (R67). -/
  | movMM (d src : Word)
  /-- CMP register `r` with the immediate `v` (R59). -/
  | cmp (sm : Submode) (r : Nat) (v : Word)
  /-- JMP_NE to `a` (R61). -/
  | jmpNe (sm : Submode) (a : Word)
  deriving DecidableEq, Repr

end Sys2Proof
end

