-- ==== Sys2Proof/Machine/State.lean ====
section
/-! DEFINITION. The state of the machine (spec/10_state.md R13): `(pc, x[0..6], flag, mem, status, fault)`, and beside
it the parameters of the implementation. -/

namespace Sys2Proof.Machine

/-- The run status (R22). -/
inductive Status where
  | run
  | halted
  | faulted
  deriving DecidableEq, Repr

/-- What a fault record names as its cause (R68): none, or one of the four faults. -/
inductive FaultCause where
  /-- No fault has happened since reset. -/
  | noFault
  /-- A fetch, data access or taken jump names an address at or above `MEM_SIZE` (R69). -/
  | addressOutOfBounds
  /-- A register operand is 7 or more (R70). -/
  | registerOutOfBounds
  /-- The opcode nibble is 5 to 15 (R71). -/
  | invalidOpcode
  /-- The submode nibble is 4 to 15 (R72). -/
  | invalidTransferMode
  deriving DecidableEq, Repr

/-- The fault record (R23). -/
structure FaultRecord where
  cause : FaultCause
  /-- The address of the header byte of the faulting instruction. -/
  fpc : Word
  /-- That header byte, 0x00 if the header fetch itself faulted. -/
  fheader : Byte
  /-- The offending address, register index, opcode nibble or submode nibble. -/
  fvalue : Word
  deriving DecidableEq, Repr

/-- The whole state (R13). -/
structure State where
  /-- The program counter (R17). -/
  pc : Word
  /-- `x[0] .. x[6]` (R14). -/
  regs : Vector Word 7
  /-- The comparison flag (R19). -/
  flag : Bool
  /-- `mem` (R24). -/
  mem : Memory
  /-- The run status (R22). -/
  status : Status
  /-- The fault record (R23). -/
  fault : FaultRecord
  /-- The implementation's parameters: the model's own field, which no step changes (notes/assumptions/2.md). -/
  cfg : Config
  deriving DecidableEq, Repr

/-- Why the machine has no next state. A fault of the spec is no such reason: taking it is a next state whose status is
FAULTED (R74, notes/assumptions/3.md). -/
inductive Fault where
  /-- Raised by `step` alone, in a state whose status is HALTED: "a machine in either has no step" (R22). Safe. -/
  | halted
  /-- Raised by `step` alone, in a state whose status is FAULTED: "a machine in either has no step" (R22). Safe. -/
  | faulted
  deriving DecidableEq, Repr

/-- Why the model gives an instruction no meaning. -/
inductive Refusal where
  /-- Raised by `exec` for an instruction that has no meaning yet; no arm of this model does. Safe. -/
  | notModelled (mnemonic : String)
  deriving DecidableEq, Repr

/-- The machine right after reset (R25): "`pc = 0`; `x[0] = x[1] = ... = x[6] = 0`; `flag = 0`; `status = RUN`;
`fault.cause = None` and the other three fields of `fault` are 0". Memory lists nothing (notes/assumptions/1.md) and the
parameters have their defaults (notes/assumptions/2.md). -/
def State.reset : State where
  pc := 0
  regs := Vector.replicate 7 0
  flag := false
  mem := []
  status := .run
  fault := { cause := .noFault, fpc := 0, fheader := 0, fvalue := 0 }
  cfg := defaultConfig

end Sys2Proof.Machine
end

