-- ==== Sys2Proof/Machine/Flags.lean ====
section
/-! DEFINITION. The comparison flag (spec/10_state.md R19): what CMP makes of it and what JMP_NE reads in it. -/

namespace Sys2Proof.Machine

/-- The flag after a compare: set when all 32 bits are equal, otherwise as it was (R59); it is never cleared (R19). -/
def flagAfterCompare (flag : Bool) (x v : Word) : Bool := if x = v then true else flag

/-- `flag <- …`, which only CMP does (R19). -/
def State.setFlag (s : State) (b : Bool) : State := { s with flag := b }

/-- JMP_NE jumps when `flag = 0` (R61). -/
def jumpTaken (flag : Bool) : Bool := !flag

end Sys2Proof.Machine
end

