-- ==== Sys2Proof/WellFormed.lean ====
section
/-! DEFINITION. Which instructions have an encoding: a register index fits the operand byte or the nibble that holds it
(spec/10_state.md R15: "ranges over 0 to 255", "ranges over 0 to 15"). An index above 6 is well-formed: it faults when it
is executed, not when it is decoded (spec/30_encoding.md R51). -/

namespace Sys2Proof

/-- Every operand fits its field (R15, R46). -/
def Instr.WellFormed : Instr → Bool
  | .halt _ => true
  | .inc _ r => decide (r < 256)
  | .movRR a b => decide (a < 16) && decide (b < 16)
  | .movLoad r _ => decide (r < 256)
  | .movStore r _ => decide (r < 256)
  | .movMM _ _ => true
  | .cmp _ r _ => decide (r < 256)
  | .jmpNe _ _ => true

end Sys2Proof
end

