-- ==== Sys2Proof/Decode.lean ====
section
/-! DEFINITION. The decoder, total on any bytes and rejecting by name, and after it the encoder, both written from the
formats of spec/30_encoding.md R42 to R50. Byte order is decided here, once (spec/00_scope.md R10). -/

namespace Sys2Proof

/-! ### Fields and byte order -/

/-- `h[3:0]` (R9, R43). -/
def loNibble (h : Byte) : BitVec 4 := h.extractLsb' 0 4

/-- `h[7:4]` (R9, R43). -/
def hiNibble (h : Byte) : BitVec 4 := h.extractLsb' 4 4

/-- The byte with the given high and low nibble (R43, R53: `op + 16*sm`). -/
def joinNibbles (hi lo : BitVec 4) : Byte := BitVec.ofNat 8 (lo.toNat + 16 * hi.toNat)

/-- `le32(b0,b1,b2,b3)` (R10). -/
def le32 (b0 b1 b2 b3 : Byte) : Word :=
  BitVec.ofNat 32 (b0.toNat + 256 * b1.toNat + 65536 * b2.toNat + 16777216 * b3.toNat)

/-- Byte `i` of a 32-bit value: `v[8*i+7 : 8*i]` (R10). -/
def leByte (v : Word) (i : Nat) : Byte := v.extractLsb' (8 * i) 8

/-- The low `n` bytes of a word, least significant first (R10, R29). -/
def leBytes (n : Nat) (v : Word) : List Byte := (List.range n).map (leByte v)

/-- The unsigned number a little-endian sequence of bytes stands for (R10). -/
def leValue : List Byte → Nat
  | [] => 0
  | b :: bs => b.toNat + 256 * leValue bs

/-! ### Header -/

/-- Opcode values (R44); 5 to 15 name no instruction. -/
def Opcode.ofNibble (n : BitVec 4) : Option Opcode :=
  match n.toNat with
  | 0 => some .halt
  | 1 => some .inc
  | 2 => some .mov
  | 3 => some .cmp
  | 4 => some .jmpNe
  | _ => none

/-- Submode values (R45); 4 to 15 name no submode. -/
def Submode.ofNibble (n : BitVec 4) : Option Submode :=
  match n.toNat with
  | 0 => some .regToReg
  | 1 => some .memToReg
  | 2 => some .regToMem
  | 3 => some .memToMem
  | _ => none

/-- Why a header byte names no instruction (R49). -/
inductive HeaderError where
  /-- The opcode nibble is 5 to 15. -/
  | invalidOpcode (op : BitVec 4)
  /-- The opcode nibble is 0 to 4 and the submode nibble is 4 to 15. -/
  | invalidTransferMode (sm : BitVec 4)
  deriving DecidableEq, Repr

/-- The instruction decoder's pure function of one byte (R43, R48): the opcode is checked before the submode, and the
submode for every opcode. -/
def decodeHeader (h : Byte) : Except HeaderError Header :=
  match Opcode.ofNibble (loNibble h) with
  | none => .error (.invalidOpcode (loNibble h))
  | some op =>
    match Submode.ofNibble (hiNibble h) with
    | none => .error (.invalidTransferMode (hiNibble h))
    | some sm => .ok ⟨op, sm⟩

/-! ### Operands -/

/-- How many operand bytes follow the header: the length of R42 less the header. -/
def Header.operandBytes : Header → Nat
  | ⟨.halt, _⟩ => 0
  | ⟨.inc, _⟩ => 1
  | ⟨.mov, .regToReg⟩ => 1
  | ⟨.mov, .memToReg⟩ => 5
  | ⟨.mov, .regToMem⟩ => 5
  | ⟨.mov, .memToMem⟩ => 8
  | ⟨.cmp, _⟩ => 5
  | ⟨.jmpNe, _⟩ => 4

/-- Operand byte `i`, counted from the byte after the header. -/
def operandByte (ops : List Byte) (i : Nat) : Byte := ops.getD i 0

/-- The four operand bytes from `i` on, as a 32-bit value (R46, R47). -/
def operandWord (ops : List Byte) (i : Nat) : Word :=
  le32 (operandByte ops i) (operandByte ops (i + 1)) (operandByte ops (i + 2)) (operandByte ops (i + 3))

/-- The instruction of a header and its operand bytes, by the formats of R46. In format RR the source is the high
nibble; in format AA the destination comes first. -/
def Header.instr (ops : List Byte) : Header → Instr
  | ⟨.halt, sm⟩ => .halt sm
  | ⟨.inc, sm⟩ => .inc sm (operandByte ops 0).toNat
  | ⟨.mov, .regToReg⟩ => .movRR (hiNibble (operandByte ops 0)).toNat (loNibble (operandByte ops 0)).toNat
  | ⟨.mov, .memToReg⟩ => .movLoad (operandByte ops 0).toNat (operandWord ops 1)
  | ⟨.mov, .regToMem⟩ => .movStore (operandByte ops 0).toNat (operandWord ops 1)
  | ⟨.mov, .memToMem⟩ => .movMM (operandWord ops 0) (operandWord ops 4)
  | ⟨.cmp, sm⟩ => .cmp sm (operandByte ops 0).toNat (operandWord ops 1)
  | ⟨.jmpNe, sm⟩ => .jmpNe sm (operandWord ops 0)

/-- Why a sequence of bytes does not begin with an instruction. -/
inductive DecodeError where
  /-- The header names no instruction (R49). -/
  | header (e : HeaderError)
  /-- The bytes end before the instruction does. -/
  | truncated
  deriving DecidableEq, Repr

/-- The instruction at the front of a sequence of bytes, and the bytes after it (R42). -/
def decode : List Byte → Except DecodeError (Instr × List Byte)
  | [] => .error .truncated
  | h :: ops =>
    match decodeHeader h with
    | .error e => .error (.header e)
    | .ok hd =>
      if ops.length < hd.operandBytes then .error .truncated
      else .ok (hd.instr ops, ops.drop hd.operandBytes)

/-! ### Encoder -/

/-- The number of an opcode (R44). -/
def Opcode.code : Opcode → BitVec 4
  | .halt => 0
  | .inc => 1
  | .mov => 2
  | .cmp => 3
  | .jmpNe => 4

/-- The number of a submode (R45). -/
def Submode.code : Submode → BitVec 4
  | .regToReg => 0
  | .memToReg => 1
  | .regToMem => 2
  | .memToMem => 3

/-- `encode(op, sm) = op + 16*sm` (R53). -/
def encodeHeader (op : Opcode) (sm : Submode) : Byte := joinNibbles sm.code op.code

/-- The bytes of an instruction, lowest address first, by the formats of R46. -/
def encode : Instr → List Byte
  | .halt sm => [encodeHeader .halt sm]
  | .inc sm r => [encodeHeader .inc sm, BitVec.ofNat 8 r]
  | .movRR a b => [encodeHeader .mov .regToReg, joinNibbles (BitVec.ofNat 4 a) (BitVec.ofNat 4 b)]
  | .movLoad r a => encodeHeader .mov .memToReg :: BitVec.ofNat 8 r :: leBytes 4 a
  | .movStore r a => encodeHeader .mov .regToMem :: BitVec.ofNat 8 r :: leBytes 4 a
  | .movMM d src => encodeHeader .mov .memToMem :: (leBytes 4 d ++ leBytes 4 src)
  | .cmp sm r v => encodeHeader .cmp sm :: BitVec.ofNat 8 r :: leBytes 4 v
  | .jmpNe sm a => encodeHeader .jmpNe sm :: leBytes 4 a

/-- The length of an instruction in bytes (R42). -/
def Instr.length : Instr → Nat
  | .halt _ => 1
  | .inc _ _ => 2
  | .movRR _ _ => 2
  | .movLoad _ _ => 6
  | .movStore _ _ => 6
  | .movMM _ _ => 9
  | .cmp _ _ _ => 6
  | .jmpNe _ _ => 5

/-! ### Words of the opcode table -/

/-- The longest instruction, MOV submode 3, in bytes (R42). -/
def maxInstrBytes : Nat := 9

/-- The bytes of a word of the opcode table: bit 0 is the least significant bit of the first byte, bits from `nbits` on
are 0, and the bytes run to the longest instruction. -/
def tableBytes (nbits w : Nat) : List Byte :=
  (List.range maxInstrBytes).map fun i => BitVec.ofNat 8 (w % 2 ^ nbits / 2 ^ (8 * i))

/-- The instruction the decoder reads from a word of the opcode table. -/
def decodeTableWord (nbits w : Nat) : Option Instr :=
  match decode (tableBytes nbits w) with
  | .ok (i, _) => some i
  | .error _ => none

end Sys2Proof
end

