-- ==== Sys2Proof/Machine/Ops.lean ====
section
/-! DEFINITION. The named operations every instruction is made of: registers (spec/10_state.md R14, R15), the memory
primitives (spec/20_memory.md R28, R29), moving the program counter (R18), taking a fault (spec/60_exceptions.md R74) and
reset (spec/70_reset_and_hazards.md R81). -/

namespace Sys2Proof.Machine

/-- What a `raise F(info)` of the spec's pseudocode carries (R11): the cause and the offending value. -/
structure Raise where
  cause : FaultCause
  value : Word
  deriving DecidableEq, Repr

/-! ### Registers -/

/-- `x[i]` (R11). -/
def State.readReg (s : State) (i : Fin 7) : Word := s.regs[i]

/-- `x[i] <- v` (R11). -/
def State.writeReg (s : State) (i : Fin 7) (v : Word) : State := { s with regs := s.regs.set i v }

/-! ### Memory -/

/-- `raise AddressOutOfBounds(a)` (R28). -/
def addressRaise (a : Nat) : Raise := { cause := .addressOutOfBounds, value := BitVec.ofNat 32 a }

/-- The first address of `addr .. addr+n-1` at or above `size`, the addresses taken in ascending order and without wrap
(R28). -/
def firstOutside (size addr n : Nat) : Option Nat :=
  ((List.range n).map (addr + ·)).find? fun a => decide (size ≤ a)

/-- `MemRead(addr, n)`: its bytes, lowest address first (R28). -/
def State.memRead (s : State) (addr n : Nat) : Except Raise (List Byte) :=
  match firstOutside s.cfg.memSize addr n with
  | some a => .error (addressRaise a)
  | none => .ok (s.mem.readBytes addr n)

/-- `MemWrite(addr, n, v)`, the value given as its bytes, least significant first; every bounds check is made before the
first byte is written (R29). -/
def State.memWrite (s : State) (addr : Nat) (bytes : List Byte) : Except Raise State :=
  match firstOutside s.cfg.memSize addr bytes.length with
  | some a => .error (addressRaise a)
  | none => .ok { s with mem := s.mem.writeBytes addr bytes }

/-! ### Sequencing -/

/-- `pc <- p + n` (R18). -/
def State.advance (s : State) (n : Nat) : State := { s with pc := s.pc + BitVec.ofNat 32 n }

/-- `pc <- a` (R61). -/
def State.jump (s : State) (a : Word) : State := { s with pc := a }

/-- `status <- HALTED` (R56). -/
def State.halt (s : State) : State := { s with status := .halted }

/-! ### Faults and reset -/

/-- `fheader`: the header byte at `pc`, or 0x00 where the header fetch itself faults (R74). -/
def State.headerByte (s : State) : Byte :=
  if s.pc.toNat < s.cfg.memSize then s.mem.read s.pc.toNat else 0

/-- Taking a fault (R74): `pc`, `x`, `flag` and `mem` keep their values, `status <- FAULTED` and the record is written.
There is no return from a fault (R75); only reset leaves FAULTED. -/
def State.raise (s : State) (c : Raise) : State :=
  { s with
    status := .faulted
    fault := { cause := c.cause, fpc := s.pc, fheader := s.headerByte, fvalue := c.value } }

/-- The end of an instruction: the state its pseudocode leaves, or, where it raised, the fault taken in the state before
it (R11: "the current instruction has no effect at all"). -/
def finish (s : State) : Except Raise State → Host.Outcome State Fault Refusal
  | .ok t => .next t
  | .error c => .next (s.raise c)

/-- Reset, in any state (R81): the values of R25; memory is neither read nor written. -/
def State.applyReset (s : State) : State :=
  { s with
    pc := 0
    regs := Vector.replicate 7 0
    flag := false
    status := .run
    fault := { cause := .noFault, fpc := 0, fheader := 0, fvalue := 0 } }

/-- The numeric code of a cause (R68). -/
def FaultCause.code : FaultCause → Nat
  | .noFault => 0
  | .addressOutOfBounds => 1
  | .registerOutOfBounds => 2
  | .invalidOpcode => 3
  | .invalidTransferMode => 4

end Sys2Proof.Machine
end

