-- ==== Sys2Proof/Machine/Operands.lean ====
section
/-! DEFINITION. The operand forms (spec/30_encoding.md R47): a register index, an absolute data address (spec/43_mov.md
R63) and an absolute jump target (spec/42_jump.md R61). The immediate of CMP is the operand itself. -/

namespace Sys2Proof.Machine

/-- A register operand: "the values 0 to 6 are the only legal ones", any other raises RegisterOutOfBounds with that
index (R15). -/
def regOperand (r : Nat) : Except Raise (Fin 7) :=
  if h : r < 7 then .ok ⟨r, h⟩
  else .error { cause := .registerOutOfBounds, value := BitVec.ofNat 32 r }

/-- The effective address of a memory operand: "`EA = a`" (R63), unsigned (R47). -/
def effectiveAddress (a : Word) : Nat := a.toNat

/-- The target of a taken jump: "if a >= MEM_SIZE: raise AddressOutOfBounds(a)" (R61). -/
def jumpTarget (s : State) (a : Word) : Except Raise Word :=
  if s.cfg.memSize ≤ a.toNat then .error (addressRaise a.toNat) else .ok a

/-- The 32-bit value of the data bytes a load read: `zext_32` of one byte, `le32` of four (R65). -/
def loadedWord (bytes : List Byte) : Word := BitVec.ofNat 32 (leValue bytes)

/-- The bytes a store writes: `x[r][8*MOVW-1 : 0]`, least significant first (R66). -/
def storedBytes (w : MovWidth) (v : Word) : List Byte := leBytes w.bytes v

end Sys2Proof.Machine
end

