-- ==== Sys2Proof/Machine/Alu.lean ====
section
/-! DEFINITION. The ALU instructions INC and CMP (spec/41_alu.md R58, R59). -/

namespace Sys2Proof.Machine

/-- INC (R58): `x[r] <- (x[r] + 1) mod 2^32`. -/
def execInc (r : Nat) (s : State) : Host.Outcome State Fault Refusal :=
  finish s do
    let i ← regOperand r
    return (s.writeReg i (s.readReg i + 1)).advance 2

/-- CMP (R59): `if x[r] = v: flag <- 1`, else the flag is unchanged. -/
def execCmp (r : Nat) (v : Word) (s : State) : Host.Outcome State Fault Refusal :=
  finish s do
    let i ← regOperand r
    return (s.setFlag (flagAfterCompare s.flag (s.readReg i) v)).advance 6

end Sys2Proof.Machine
end

