-- ==== Sys2Proof/Machine/Halt.lean ====
section
/-! DEFINITION. HALT (spec/40_sequencer_halt.md R56). -/

namespace Sys2Proof.Machine

/-- HALT (R56): `status <- HALTED`, "pc, x, flag, mem unchanged". -/
def execHalt (s : State) : Host.Outcome State Fault Refusal :=
  .next s.halt

end Sys2Proof.Machine
end

