-- ==== Sys2Proof/Machine/Jump.lean ====
section
/-! DEFINITION. JMP_NE (spec/42_jump.md R61). -/

namespace Sys2Proof.Machine

/-- JMP_NE (R61): with `flag = 0`, `pc <- a`, and the target is checked; else `pc <- p + 5`, and it is not. -/
def execJmpNe (a : Word) (s : State) : Host.Outcome State Fault Refusal :=
  finish s do
    if jumpTaken s.flag then
      let t ← jumpTarget s a
      return s.jump t
    else
      return s.advance 5

end Sys2Proof.Machine
end

