-- ==== Sys2Proof/Machine/Mov.lean ====
section
/-! DEFINITION. The four transfer forms of MOV (spec/43_mov.md R64 to R67). In each, every check comes before any write
(spec/20_memory.md R34, spec/60_exceptions.md R73). -/

namespace Sys2Proof.Machine

/-- MOV submode 0 (R64): `x[B] <- x[A]`, the source index checked first. -/
def execMovRR (a b : Nat) (s : State) : Host.Outcome State Fault Refusal :=
  finish s do
    let i ← regOperand a
    let j ← regOperand b
    return (s.writeReg j (s.readReg i)).advance 2

/-- MOV submode 1 (R65): `x[r] <- zext_32(MemRead(a, MOVW))`. -/
def execMovLoad (r : Nat) (a : Word) (s : State) : Host.Outcome State Fault Refusal :=
  finish s do
    let i ← regOperand r
    let t ← s.memRead (effectiveAddress a) s.cfg.movw.bytes
    return (s.writeReg i (loadedWord t)).advance 6

/-- MOV submode 2 (R66): `MemWrite(a, MOVW, x[r][8*MOVW-1 : 0])`. -/
def execMovStore (r : Nat) (a : Word) (s : State) : Host.Outcome State Fault Refusal :=
  finish s do
    let i ← regOperand r
    let s' ← s.memWrite (effectiveAddress a) (storedBytes s.cfg.movw (s.readReg i))
    return s'.advance 6

/-- MOV submode 3 (R67): the whole source is read, then written at the destination. -/
def execMovMM (d src : Word) (s : State) : Host.Outcome State Fault Refusal :=
  finish s do
    let t ← s.memRead (effectiveAddress src) s.cfg.movw.bytes
    let s' ← s.memWrite (effectiveAddress d) t
    return s'.advance 9

end Sys2Proof.Machine
end

