-- ==== Sys2Proof/Machine/Dispatch.lean ====
section
/-! DEFINITION. One arm per constructor of Instr: the `case` of the step function (spec/40_sequencer_halt.md R54). The
submode of a form that is no MOV is ignored (spec/30_encoding.md R50). -/

namespace Sys2Proof.Machine

def exec (i : Instr) (s : State) : Host.Outcome State Fault Refusal :=
  match i with
  | .halt _ => Sys2Proof.Machine.execHalt s
  | .inc _ r => Sys2Proof.Machine.execInc r s
  | .movRR a b => Sys2Proof.Machine.execMovRR a b s
  | .movLoad r a => Sys2Proof.Machine.execMovLoad r a s
  | .movStore r a => Sys2Proof.Machine.execMovStore r a s
  | .movMM d src => Sys2Proof.Machine.execMovMM d src s
  | .cmp _ r v => Sys2Proof.Machine.execCmp r v s
  | .jmpNe _ a => Sys2Proof.Machine.execJmpNe a s

end Sys2Proof.Machine
end

