-- ==== Sys2Proof/Machine/Fetch.lean ====
section
/-! DEFINITION. Fetch and decode: the first half of the step (spec/40_sequencer_halt.md R54), with the accesses of
spec/20_memory.md R30. -/

namespace Sys2Proof.Machine

/-- What fetching and decoding at `pc` gives. -/
inductive Fetched where
  /-- An instruction to execute. -/
  | instr (i : Instr)
  /-- A fault of the header fetch, the decoder or the operand fetch. -/
  | raised (c : Raise)
  /-- An unknown header under `UNKNOWN_ENC = spin`: "the step changes nothing" (R8). -/
  | spin
  deriving DecidableEq, Repr

/-- The fault of an unknown header, with the offending nibble (R49). -/
def headerRaise : HeaderError → Raise
  | .invalidOpcode op => { cause := .invalidOpcode, value := op.setWidth 32 }
  | .invalidTransferMode sm => { cause := .invalidTransferMode, value := sm.setWidth 32 }

/-- An unknown header, as `UNKNOWN_ENC` selects (R8, R54). -/
def unknownHeader (u : UnknownEnc) (e : HeaderError) : Fetched :=
  match u with
  | .fault => .raised (headerRaise e)
  | .spin => .spin

/-- Header fetch, decode, operand fetch, in this order (R54, R73). The operand bytes are read at ascending addresses
after the header (R17, R30), and only once the header has been decoded (R49). -/
def fetch (s : State) : Fetched :=
  match s.memRead s.pc.toNat 1 with
  | .error c => .raised c
  | .ok header =>
    match decodeHeader (operandByte header 0) with
    | .error e => unknownHeader s.cfg.unknownEnc e
    | .ok hd =>
      match s.memRead (s.pc.toNat + 1) hd.operandBytes with
      | .error c => .raised c
      | .ok ops => .instr (hd.instr ops)

/-- Bytes placed from `pc` on, as far as memory reaches. -/
def State.placeAtPc (s : State) (bytes : List Byte) : State :=
  { s with mem := s.mem.writeBytes s.pc.toNat (bytes.take (s.cfg.memSize - s.pc.toNat)) }

end Sys2Proof.Machine
end

