-- ==== Sys2Proof/Machine/Step.lean ====
section
/-! DEFINITION. The step function (spec/40_sequencer_halt.md R54). -/

namespace Sys2Proof.Machine

/-- One step (R54): defined only when `status = RUN`; "a machine in HALTED or FAULTED has no step". -/
def step (s : State) : Host.Outcome State Fault Refusal :=
  match s.status with
  | .halted => .fault .halted
  | .faulted => .fault .faulted
  | .run =>
    match fetch s with
    | .instr i => exec i s
    | .raised c => .next (s.raise c)
    | .spin => .next s

/-- The state with an instruction of the opcode table placed where the next fetch reads: memory from `pc` on. The machine
fetches at its program counter from the memory the host filled (R82), so nothing else is changed
(notes/assumptions/4.md). -/
def State.withFetchWord (s : State) (nbits w : Nat) : State :=
  s.placeAtPc (tableBytes nbits w)

end Sys2Proof.Machine
end

