-- ==== Sys2Proof/Machine/External.lean ====
section
/-! DEFINITION. What crosses the block's boundary (spec/10_state.md R26, spec/70_reset_and_hazards.md R81 to R83): the
host's moves, which land between steps and never during a run, and what it reads. Reset itself is `State.applyReset`. -/

namespace Sys2Proof.Machine

/-- HALTED or FAULTED: "HALTED and FAULTED are terminal" (R22). -/
def State.terminal (s : State) : Bool :=
  match s.status with
  | .run => false
  | .halted => true
  | .faulted => true

/-- The host holds the core in reset, places bytes from `base` on and releases reset (R81, R82); none where they do not
fit below `MEM_SIZE`. -/
def State.loadImage (s : State) (base : Nat) (bytes : List Byte) : Option State :=
  if base + bytes.length ≤ s.cfg.memSize then
    some { s.applyReset with mem := s.mem.writeBytes base bytes }
  else none

/-- When the host may touch memory: "allowed only while the core is held in reset or is in a terminal state" (R26).
`held` says whether it holds the core in reset. -/
def State.hostMayAccess (s : State) (held : Bool) : Bool := held || s.terminal

/-- The host writes one byte (R26); none where it has no such move. -/
def State.hostWrite (s : State) (held : Bool) (a : Nat) (b : Byte) : Option State :=
  if s.hostMayAccess held ∧ a < s.cfg.memSize then some { s with mem := s.mem.write a b } else none

/-- The host reads one byte (R26, R83); none where it has no such move. -/
def State.hostRead (s : State) (held : Bool) (a : Nat) : Option Byte :=
  if s.hostMayAccess held ∧ a < s.cfg.memSize then some (s.mem.read a) else none

/-- The `result` output: `x[0]`, "meaningful when `status = HALTED`" (R26). -/
def State.result (s : State) : Option Word :=
  match s.status with
  | .halted => some s.regs[0]
  | .run => none
  | .faulted => none

/-- `sint32(v)`: "`v` if `v < 2^31`, else `v - 2^32`" (R11). -/
def sint32 (v : Word) : Int :=
  if v.toNat < 2 ^ 31 then (v.toNat : Int) else (v.toNat : Int) - 2 ^ 32

/-- The number the host prints: `sint32(x[0])` (R83). -/
def State.printedResult (s : State) : Option Int := s.result.map sint32

/-- The fault report: the record, "meaningful when `status = FAULTED`" (R26). -/
def State.faultReport (s : State) : Option FaultRecord :=
  match s.status with
  | .faulted => some s.fault
  | .run => none
  | .halted => none

end Sys2Proof.Machine
end

