-- ==== Sys2Proof/Safety.lean ====
section
/-! DEFINITION. The terms claims are made in: runs and how they end (spec/40_sequencer_halt.md R55), what a safe run is,
the registers and the bytes an instruction may change, and the invariant every step keeps. -/

namespace Sys2Proof

/-- The register an instruction writes, as its rule names it (R58, R64, R65). -/
def Instr.destReg : Instr → Option Nat
  | .inc _ r => some r
  | .movRR _ b => some b
  | .movLoad r _ => some r
  | .halt _ => none
  | .movStore _ _ => none
  | .movMM _ _ => none
  | .cmp _ _ _ => none
  | .jmpNe _ _ => none

/-- The address operand an instruction stores to, as its rule names it (R66, R67). -/
def Instr.storeTarget : Instr → Option Word
  | .movStore _ a => some a
  | .movMM d _ => some d
  | .halt _ => none
  | .inc _ _ => none
  | .movRR _ _ => none
  | .movLoad _ _ => none
  | .cmp _ _ _ => none
  | .jmpNe _ _ => none

/-- CMP is "the only instruction that writes" the flag (R19). -/
def Instr.writesFlag : Instr → Bool
  | .cmp _ _ _ => true
  | .halt _ => false
  | .inc _ _ => false
  | .movRR _ _ => false
  | .movLoad _ _ => false
  | .movStore _ _ => false
  | .movMM _ _ => false
  | .jmpNe _ _ => false

namespace Machine

/-! ### What a claim reads in a state -/

/-- The machine runs and the header at `pc` has the given opcode and submode. -/
def State.AtHeader (s : State) (op : Opcode) (sm : Submode) : Prop :=
  s.status = .run ∧ s.pc.toNat < s.cfg.memSize ∧ s.mem.read s.pc.toNat = encodeHeader op sm

/-- `le32` of the four bytes from an address on (R10). -/
def State.wordAt (s : State) (a : Nat) : Word :=
  le32 (s.mem.read a) (s.mem.read (a + 1)) (s.mem.read (a + 2)) (s.mem.read (a + 3))

/-- The state R74 gives for a fault with the given cause and value, whose header byte is `h`. -/
def State.faultedWith (s : State) (h : Byte) (cause : FaultCause) (value : Nat) : State :=
  { s with
    status := .faulted
    fault := { cause := cause, fpc := s.pc, fheader := h, fvalue := BitVec.ofNat 32 value } }

/-- The value a load of `MOVW` bytes at `a` gives a register (R65). -/
def State.loadValue (s : State) (a : Nat) : Word :=
  match s.cfg.movw with
  | .one => (s.mem.read a).setWidth 32
  | .four => s.wordAt a

/-- The byte an instruction that completes at `s` leaves at an address: the one it stores there, as its rule names it
(R66, R67), else the one that stood there before. -/
def State.byteAfter (s : State) (i : Instr) (k : Nat) : Byte :=
  match i with
  | .movStore r a =>
    if h : r < 7 ∧ effectiveAddress a ≤ k ∧ k < effectiveAddress a + s.cfg.movw.bytes then
      s.regs[r].extractLsb' (8 * (k - effectiveAddress a)) 8
    else s.mem.read k
  | .movMM d src =>
    if effectiveAddress d ≤ k ∧ k < effectiveAddress d + s.cfg.movw.bytes then
      s.mem.read (effectiveAddress src + (k - effectiveAddress d))
    else s.mem.read k
  | .halt _ => s.mem.read k
  | .inc _ _ => s.mem.read k
  | .movRR _ _ => s.mem.read k
  | .movLoad _ _ => s.mem.read k
  | .cmp _ _ _ => s.mem.read k
  | .jmpNe _ _ => s.mem.read k

/-- The states agree in everything but `pc` and `mem`. -/
def SameBesidesPcAndMem (s t : State) : Prop :=
  t.regs = s.regs ∧ t.flag = s.flag ∧ t.status = s.status ∧ t.fault = s.fault ∧ t.cfg = s.cfg

/-- An instruction run `k` times from a state. -/
def execTimes (i : Instr) : Nat → State → Host.Outcome State Fault Refusal
  | 0, s => .next s
  | k + 1, s =>
    match exec i s with
    | .next t => execTimes i k t
    | .fault f => .fault f
    | .refused f => .refused f

/-! ### Runs -/

/-- `k` steps from a state. -/
def runFor (k : Nat) (s : State) : Host.Outcome State Fault Refusal := Sys2Proof.core.run k s

/-- The run from `s` ends with a HALT, in `t` (R55, ending 1). -/
def HaltsIn (s t : State) : Prop := ∃ k, runFor k s = .next t ∧ t.status = .halted

/-- The run from `s` ends with a fault, in `t` (R55, ending 2). -/
def FaultsIn (s t : State) : Prop := ∃ k, runFor k s = .next t ∧ t.status = .faulted

/-- The run from `s` never ends (R55, ending 3). -/
def RunsForever (s : State) : Prop := ∀ k, ∃ t, runFor k s = .next t ∧ t.status = .run

/-- A safe run: no step of it faults. -/
def SafeRun (s : State) : Prop := ∀ t, ¬ FaultsIn s t

/-- The next step of `s` is a CMP that finds its register equal to its immediate (R19). -/
def FindsEqual (s : State) : Prop :=
  s.status = .run ∧
    ∃ sm r v, fetch s = .instr (.cmp sm r v) ∧ ∃ h : r < 7, s.regs[r] = v

/-! ### The invariant -/

/-- The offending value a cause may record (R68). -/
def FaultValueLegal (memSize : Nat) (v : Word) : FaultCause → Prop
  | .noFault => False
  | .addressOutOfBounds => memSize ≤ v.toNat
  | .registerOutOfBounds => 7 ≤ v.toNat ∧ v.toNat ≤ 255
  | .invalidOpcode => 5 ≤ v.toNat ∧ v.toNat ≤ 15
  | .invalidTransferMode => 4 ≤ v.toNat ∧ v.toNat ≤ 15

/-- The fault record before any fault (R25). -/
def clearRecord : FaultRecord := { cause := .noFault, fpc := 0, fheader := 0, fvalue := 0 }

/-- What holds of the machine after reset and after every step of it. -/
structure State.Inv (s : State) : Prop where
  /-- R3. -/
  config : s.cfg.wf
  /-- Memory keeps its canonical form. -/
  canonical : s.mem.wf
  /-- Memory has no byte at or above `MEM_SIZE` (R27). -/
  within : s.mem.within s.cfg.memSize
  /-- `pc` is at most one past the last byte: a jump lands in memory (R61) and an instruction ends in it (R18). -/
  pcInRange : s.pc.toNat ≤ s.cfg.memSize
  /-- The fault record is written by the faulting step alone (R23). -/
  recordClear : s.status ≠ .faulted → s.fault = clearRecord
  /-- A fault leaves `pc` at the faulting header and records it (R74). -/
  recordTrue : s.status = .faulted →
    s.fault.fpc = s.pc ∧ s.fault.fheader = s.headerByte ∧
      FaultValueLegal s.cfg.memSize s.fault.fvalue s.fault.cause
  /-- HALTED: `pc` "still holds the address of the HALT header" (R56). -/
  haltedAtHalt : s.status = .halted →
    s.pc.toNat < s.cfg.memSize ∧ ∃ sm, decodeHeader (s.mem.read s.pc.toNat) = .ok ⟨.halt, sm⟩

end Machine

end Sys2Proof
end

