-- ==== Sys2Proof/Certificates/Slice0/Obligations.lean ====
section
/-! DEFINITION. The statements for the provers. Each docstring names the rule of spec/ a statement formalises, or says
what it rests on. A statement about a state is about every state, hence about every content of memory and every value of
the parameters `MEM_SIZE`, `MOVW` and `UNKNOWN_ENC`. -/

open Sys2Proof Sys2Proof.Machine

/-! ### Encoding -/

/-- One word of each form, written out from the formats of R46 (most of them the bytes of programs P1 and P2). A sanity
statement. -/
def Obligations.SampleWordsDecode : Prop :=
  decode [0x00] = .ok (.halt .regToReg, []) ∧
  decode [0x01, 0x06] = .ok (.inc .regToReg 6, []) ∧
  decode [0x31, 0x06] = .ok (.inc .memToMem 6, []) ∧
  decode [0x02, 0x21] = .ok (.movRR 2 1, []) ∧
  decode [0x12, 0x03, 0x13, 0x00, 0x01, 0x00] = .ok (.movLoad 3 0x00010013, []) ∧
  decode [0x22, 0x01, 0x21, 0x00, 0x00, 0x80] = .ok (.movStore 1 0x80000021, []) ∧
  decode [0x32, 0x22, 0x00, 0x00, 0x00, 0x21, 0x00, 0x01, 0x00] = .ok (.movMM 0x22 0x00010021, []) ∧
  decode [0x03, 0x00, 0x0A, 0x00, 0x00, 0x00] = .ok (.cmp .regToReg 0 10, []) ∧
  decode [0x04, 0x06, 0x00, 0x00, 0x00] = .ok (.jmpNe .regToReg 6, []) ∧
  decode [0xF5] = .error (.header (.invalidOpcode 5)) ∧
  decode [0x40] = .error (.header (.invalidTransferMode 4))

/-- R48: every header value, by its nibbles and by match and mask, and the counts of the table. -/
def Obligations.HeaderMapIsTotal : Prop :=
  (∀ h : Byte,
    (5 ≤ h.toNat % 16 → decodeHeader h = .error (.invalidOpcode (BitVec.ofNat 4 (h.toNat % 16)))) ∧
    (h.toNat % 16 ≤ 4 → 4 ≤ h.toNat / 16 →
      decodeHeader h = .error (.invalidTransferMode (BitVec.ofNat 4 (h.toNat / 16)))) ∧
    (h &&& 0xCF = 0x00 ↔ ∃ sm, sm.code.toNat = h.toNat / 16 ∧ decodeHeader h = .ok ⟨.halt, sm⟩) ∧
    (h &&& 0xCF = 0x01 ↔ ∃ sm, sm.code.toNat = h.toNat / 16 ∧ decodeHeader h = .ok ⟨.inc, sm⟩) ∧
    (h &&& 0xCF = 0x03 ↔ ∃ sm, sm.code.toNat = h.toNat / 16 ∧ decodeHeader h = .ok ⟨.cmp, sm⟩) ∧
    (h &&& 0xCF = 0x04 ↔ ∃ sm, sm.code.toNat = h.toNat / 16 ∧ decodeHeader h = .ok ⟨.jmpNe, sm⟩) ∧
    (h &&& 0xFF = 0x02 ↔ decodeHeader h = .ok ⟨.mov, .regToReg⟩) ∧
    (h &&& 0xFF = 0x12 ↔ decodeHeader h = .ok ⟨.mov, .memToReg⟩) ∧
    (h &&& 0xFF = 0x22 ↔ decodeHeader h = .ok ⟨.mov, .regToMem⟩) ∧
    (h &&& 0xFF = 0x32 ↔ decodeHeader h = .ok ⟨.mov, .memToMem⟩)) ∧
  ((List.range 256).countP fun n =>
    match decodeHeader (BitVec.ofNat 8 n) with | .error (.invalidOpcode _) => true | _ => false) = 176 ∧
  ((List.range 256).countP fun n =>
    match decodeHeader (BitVec.ofNat 8 n) with | .error (.invalidTransferMode _) => true | _ => false) = 60

/-- R53: encode and decode of a header are inverse on the known set of 20 pairs, and `encode(op, sm) = op + 16*sm`. -/
def Obligations.HeaderEncodeDecodeInverse : Prop :=
  ∀ (op : Opcode) (sm : Submode),
    decodeHeader (encodeHeader op sm) = .ok ⟨op, sm⟩ ∧
    (encodeHeader op sm).toNat = op.code.toNat + 16 * sm.code.toNat

/-- Decoding the bytes of a well-formed instruction, whatever follows them, gives it back and leaves the rest. -/
def Obligations.DecodeOfEncode : Prop :=
  ∀ (i : Instr) (rest : List Byte), i.WellFormed = true → decode (encode i ++ rest) = .ok (i, rest)

/-- Whatever the decoder accepts is well-formed, and its bytes are the encoding of what it gave. For the headers that
R50 calls aliases of one instruction (0x11, 0x21 and 0x31 of INC, and the like) this is the model's choice and no rule of
the spec: it holds because `Instr` keeps the submode such an instruction ignores (notes/assumptions/7.md). -/
def Obligations.EncodeOfDecode : Prop :=
  ∀ (bytes : List Byte) (i : Instr) (rest : List Byte),
    decode bytes = .ok (i, rest) → i.WellFormed = true ∧ encode i ++ rest = bytes

/-- The length table of R42: the header byte alone determines how many bytes an instruction takes. -/
def Obligations.LengthFollowsFromHeaderAlone : Prop :=
  ∀ (h : Byte) (ops : List Byte) (i : Instr) (rest : List Byte),
    decode (h :: ops) = .ok (i, rest) →
      (h :: ops).length = rest.length +
        (if h.toNat % 16 = 0 then 1
         else if h.toNat % 16 = 1 then 2
         else if h.toNat % 16 = 3 then 6
         else if h.toNat % 16 = 4 then 5
         else if h.toNat / 16 = 0 then 2
         else if h.toNat / 16 = 3 then 9
         else 6)

/-! ### Memory -/

/-- R28: a read of 1 or 4 bytes, and the lowest out-of-range byte address where the range leaves memory. -/
def Obligations.MemReadFollowsRule : Prop :=
  ∀ (s : State) (addr n : Nat), n = 1 ∨ n = 4 →
    (addr + n ≤ s.cfg.memSize →
      ∃ bytes, s.memRead addr n = .ok bytes ∧
        (n = 1 → bytes = [s.mem.read addr]) ∧
        (n = 4 → bytes = [s.mem.read addr, s.mem.read (addr + 1), s.mem.read (addr + 2), s.mem.read (addr + 3)] ∧
          loadedWord bytes = s.wordAt addr)) ∧
    (s.cfg.memSize < addr + n → s.memRead addr n = .error (addressRaise (max addr s.cfg.memSize)))

/-- R29: a write of the low 1 or 4 bytes of a value; outside memory nothing is written. -/
def Obligations.MemWriteFollowsRule : Prop :=
  ∀ (s : State) (addr n : Nat) (v : Word), s.mem.wf → n = 1 ∨ n = 4 →
    (addr + n ≤ s.cfg.memSize →
      ∃ t, s.memWrite addr (leBytes n v) = .ok t ∧ t.pc = s.pc ∧ SameBesidesPcAndMem s t ∧
        (∀ i, i < n → t.mem.read (addr + i) = v.extractLsb' (8 * i) 8) ∧
        ∀ k, ¬ (addr ≤ k ∧ k < addr + n) → t.mem.read k = s.mem.read k) ∧
    (s.cfg.memSize < addr + n → s.memWrite addr (leBytes n v) = .error (addressRaise (max addr s.cfg.memSize)))

/-- Two memories in canonical form that read alike at every address are the same data. -/
def Obligations.EqualMemoriesAreEqualData : Prop :=
  ∀ m m' : Memory, m.wf → m'.wf → (∀ a, m.read a = m'.read a) → m = m'

/-- What a store writes a load at the same address reads back: the whole register where `MOVW` is 4, its low byte,
widened with zeros, where `MOVW` is 1. -/
def Obligations.StoreThenLoadReadsBack : Prop :=
  ∀ (s : State) (r q : Nat) (a : Word) (hr : r < 7) (hq : q < 7),
    s.mem.wf → a.toNat + s.cfg.movw.bytes ≤ s.cfg.memSize →
      ∃ t u, exec (.movStore r a) s = .next t ∧ exec (.movLoad q a) t = .next u ∧
        u.regs[q] = match s.cfg.movw with
          | .one => (s.regs[r].setWidth 8).setWidth 32
          | .four => s.regs[r]

/-! ### Each instruction completes, and with what result -/

/-- HALT completes in every state: only the status changes. -/
def Obligations.HaltCompletes : Prop :=
  ∀ (sm : Submode) (s : State), exec (.halt sm) s = .next { s with status := .halted }

/-- INC of a legal register completes in every state; nothing but the register and `pc` changes. -/
def Obligations.IncCompletes : Prop :=
  ∀ (sm : Submode) (r : Nat) (s : State) (h : r < 7),
    exec (.inc sm r) s = .next { s with regs := s.regs.set r (s.regs[r] + 1), pc := s.pc + 2 }

/-- CMP of a legal register completes in every state; nothing but the flag and `pc` changes, and the flag only to 1 and
only on equality. -/
def Obligations.CmpCompletes : Prop :=
  ∀ (sm : Submode) (r : Nat) (v : Word) (s : State) (h : r < 7),
    exec (.cmp sm r v) s = .next { s with flag := s.flag || s.regs[r] == v, pc := s.pc + 6 }

/-- JMP_NE completes when it falls through or its target lies in memory; nothing but `pc` changes. -/
def Obligations.JmpNeCompletes : Prop :=
  ∀ (sm : Submode) (a : Word) (s : State), s.flag = true ∨ a.toNat < s.cfg.memSize →
    exec (.jmpNe sm a) s = .next { s with pc := if s.flag then s.pc + 5 else a }

/-- MOV submode 0 between legal registers completes in every state; nothing but the destination and `pc` changes. -/
def Obligations.MovRRCompletes : Prop :=
  ∀ (a b : Nat) (s : State) (ha : a < 7) (hb : b < 7),
    exec (.movRR a b) s = .next { s with regs := s.regs.set b s.regs[a], pc := s.pc + 2 }

/-- MOV submode 1 of a legal register and a range in memory completes; nothing but the register and `pc` changes. -/
def Obligations.MovLoadCompletes : Prop :=
  ∀ (r : Nat) (a : Word) (s : State) (h : r < 7), effectiveAddress a + s.cfg.movw.bytes ≤ s.cfg.memSize →
    exec (.movLoad r a) s =
      .next { s with regs := s.regs.set r (s.loadValue (effectiveAddress a)), pc := s.pc + 6 }

/-- MOV submode 2 of a legal register and a range in memory completes; the bytes of the range are those of the register,
least significant first, every other byte is as it was, and nothing else but `pc` changes. -/
def Obligations.MovStoreCompletes : Prop :=
  ∀ (r : Nat) (a : Word) (s : State) (h : r < 7),
    s.mem.wf → effectiveAddress a + s.cfg.movw.bytes ≤ s.cfg.memSize →
      ∃ t, exec (.movStore r a) s = .next t ∧ t.pc = s.pc + 6 ∧ SameBesidesPcAndMem s t ∧ t.mem.wf ∧
        (∀ i, i < s.cfg.movw.bytes →
          t.mem.read (effectiveAddress a + i) = s.regs[r].extractLsb' (8 * i) 8) ∧
        ∀ k, ¬ (effectiveAddress a ≤ k ∧ k < effectiveAddress a + s.cfg.movw.bytes) →
          t.mem.read k = s.mem.read k

/-- MOV submode 3 between ranges in memory completes; each byte of the destination is the byte the source held before
the instruction, also where the ranges overlap, every other byte is as it was, and nothing else but `pc` changes. -/
def Obligations.MovMMCompletes : Prop :=
  ∀ (d src : Word) (s : State), s.mem.wf →
    effectiveAddress src + s.cfg.movw.bytes ≤ s.cfg.memSize →
    effectiveAddress d + s.cfg.movw.bytes ≤ s.cfg.memSize →
      ∃ t, exec (.movMM d src) s = .next t ∧ t.pc = s.pc + 9 ∧ SameBesidesPcAndMem s t ∧ t.mem.wf ∧
        (∀ i, i < s.cfg.movw.bytes →
          t.mem.read (effectiveAddress d + i) = s.mem.read (effectiveAddress src + i)) ∧
        ∀ k, ¬ (effectiveAddress d ≤ k ∧ k < effectiveAddress d + s.cfg.movw.bytes) →
          t.mem.read k = s.mem.read k

/-- The property R58 states: INC of a register run `k` times adds `k`, modulo 2^32, and leaves the rest alone. -/
def Obligations.RepeatedIncAddsItsCount : Prop :=
  ∀ (k : Nat) (sm : Submode) (r : Nat) (s : State) (h : r < 7),
    ∃ t, execTimes (.inc sm r) k s = .next t ∧
      t.regs[r] = s.regs[r] + BitVec.ofNat 32 k ∧
      (∀ (j : Nat) (hj : j < 7), j ≠ r → t.regs[j] = s.regs[j]) ∧
      t.flag = s.flag ∧ t.mem = s.mem ∧ t.status = s.status

/-! ### Where an instruction traps -/

/-- R70: an index above 6 raises RegisterOutOfBounds with that index, MOV submode 0 checks the source first, and HALT,
JMP_NE and MOV submode 3 never raise it. -/
def Obligations.RegisterIndexTraps : Prop :=
  (∀ (s : State) (sm : Submode) (r : Nat) (v a : Word), 7 ≤ r → r ≤ 255 →
    let fault := Host.Outcome.next (s.faultedWith s.headerByte .registerOutOfBounds r)
    exec (.inc sm r) s = fault ∧ exec (.cmp sm r v) s = fault ∧
      exec (.movLoad r a) s = fault ∧ exec (.movStore r a) s = fault) ∧
  (∀ (s : State) (a b : Nat), 7 ≤ a → a ≤ 15 →
    exec (.movRR a b) s = .next (s.faultedWith s.headerByte .registerOutOfBounds a)) ∧
  (∀ (s : State) (a b : Nat), a < 7 → 7 ≤ b → b ≤ 15 →
    exec (.movRR a b) s = .next (s.faultedWith s.headerByte .registerOutOfBounds b)) ∧
  (∀ (s t : State) (sm : Submode) (a d src : Word), s.status ≠ .faulted →
    (exec (.halt sm) s = .next t ∨ exec (.jmpNe sm a) s = .next t ∨ exec (.movMM d src) s = .next t) →
      t.status = .faulted → t.fault.cause ≠ .registerOutOfBounds)

/-- The data and target cases of R69 (c, d and e), at the instructions: the lowest byte address outside memory, the
source of MOV submode 3 before its destination, and the target of a taken JMP_NE alone. -/
def Obligations.DataAddressTraps : Prop :=
  ∀ (s : State) (sm : Submode) (r : Nat) (a d src : Word), r < 7 →
    (s.cfg.memSize < a.toNat + s.cfg.movw.bytes →
      exec (.movLoad r a) s =
        .next (s.faultedWith s.headerByte .addressOutOfBounds (max a.toNat s.cfg.memSize)) ∧
      exec (.movStore r a) s =
        .next (s.faultedWith s.headerByte .addressOutOfBounds (max a.toNat s.cfg.memSize))) ∧
    (s.cfg.memSize < src.toNat + s.cfg.movw.bytes →
      exec (.movMM d src) s =
        .next (s.faultedWith s.headerByte .addressOutOfBounds (max src.toNat s.cfg.memSize))) ∧
    (src.toNat + s.cfg.movw.bytes ≤ s.cfg.memSize → s.cfg.memSize < d.toNat + s.cfg.movw.bytes →
      exec (.movMM d src) s =
        .next (s.faultedWith s.headerByte .addressOutOfBounds (max d.toNat s.cfg.memSize))) ∧
    (s.flag = false → s.cfg.memSize ≤ a.toNat →
      exec (.jmpNe sm a) s = .next (s.faultedWith s.headerByte .addressOutOfBounds a.toNat))

/-! ### The rule of each instruction, as a step from its bytes -/

/-- R56: any of the four HALT headers halts; everything but the status stays, and `x[0]` is the result. -/
def Obligations.HaltHeaderEndsTheRun : Prop :=
  ∀ (s : State) (sm : Submode), s.AtHeader .halt sm →
    ∃ t, step s = .next t ∧ t = { s with status := .halted } ∧ t.result = some s.regs[0]

/-- R58, the pseudocode of INC from its bytes. -/
def Obligations.IncHeaderIncrementsRegister : Prop :=
  ∀ (s : State) (sm : Submode), s.AtHeader .inc sm →
    let p := s.pc.toNat
    let r := (s.mem.read (p + 1)).toNat
    step s =
      if s.cfg.memSize ≤ p + 1 then
        .next (s.faultedWith (encodeHeader .inc sm) .addressOutOfBounds (p + 1))
      else if h : r < 7 then .next { s with regs := s.regs.set r (s.regs[r] + 1), pc := s.pc + 2 }
      else .next (s.faultedWith (encodeHeader .inc sm) .registerOutOfBounds r)

/-- R59, the pseudocode of CMP from its bytes. -/
def Obligations.CmpHeaderSetsFlagOnEquality : Prop :=
  ∀ (s : State) (sm : Submode), s.AtHeader .cmp sm →
    let p := s.pc.toNat
    let r := (s.mem.read (p + 1)).toNat
    step s =
      if s.cfg.memSize ≤ p + 5 then
        .next (s.faultedWith (encodeHeader .cmp sm) .addressOutOfBounds s.cfg.memSize)
      else if h : r < 7 then
        .next { s with flag := if s.regs[r] = s.wordAt (p + 2) then true else s.flag, pc := s.pc + 6 }
      else .next (s.faultedWith (encodeHeader .cmp sm) .registerOutOfBounds r)

/-- R61, the pseudocode of JMP_NE from its bytes. -/
def Obligations.JmpNeHeaderJumpsWhileFlagClear : Prop :=
  ∀ (s : State) (sm : Submode), s.AtHeader .jmpNe sm →
    let p := s.pc.toNat
    let a := s.wordAt (p + 1)
    step s =
      if s.cfg.memSize ≤ p + 4 then
        .next (s.faultedWith (encodeHeader .jmpNe sm) .addressOutOfBounds s.cfg.memSize)
      else if s.flag = true then .next { s with pc := s.pc + 5 }
      else if s.cfg.memSize ≤ a.toNat then
        .next (s.faultedWith (encodeHeader .jmpNe sm) .addressOutOfBounds a.toNat)
      else .next { s with pc := a }

/-- R64, the pseudocode of MOV submode 0 from its bytes. -/
def Obligations.MovRRHeaderCopiesRegister : Prop :=
  ∀ s : State, s.AtHeader .mov .regToReg →
    let p := s.pc.toNat
    let a := (s.mem.read (p + 1)).toNat / 16
    let b := (s.mem.read (p + 1)).toNat % 16
    step s =
      if s.cfg.memSize ≤ p + 1 then .next (s.faultedWith 0x02 .addressOutOfBounds (p + 1))
      else if ha : a < 7 then
        if hb : b < 7 then .next { s with regs := s.regs.set b s.regs[a], pc := s.pc + 2 }
        else .next (s.faultedWith 0x02 .registerOutOfBounds b)
      else .next (s.faultedWith 0x02 .registerOutOfBounds a)

/-- R65, the pseudocode of MOV submode 1 from its bytes, for both values of `MOVW`. -/
def Obligations.MovLoadHeaderLoadsRegister : Prop :=
  ∀ s : State, s.AtHeader .mov .memToReg →
    let p := s.pc.toNat
    let r := (s.mem.read (p + 1)).toNat
    let a := (s.wordAt (p + 2)).toNat
    step s =
      if s.cfg.memSize ≤ p + 5 then .next (s.faultedWith 0x12 .addressOutOfBounds s.cfg.memSize)
      else if h : r < 7 then
        if s.cfg.memSize < a + s.cfg.movw.bytes then
          .next (s.faultedWith 0x12 .addressOutOfBounds (max a s.cfg.memSize))
        else .next { s with regs := s.regs.set r (s.loadValue a), pc := s.pc + 6 }
      else .next (s.faultedWith 0x12 .registerOutOfBounds r)

/-- R66, the pseudocode of MOV submode 2 from its bytes, for both values of `MOVW`. -/
def Obligations.MovStoreHeaderStoresRegister : Prop :=
  ∀ s : State, s.AtHeader .mov .regToMem → s.mem.wf →
    let p := s.pc.toNat
    let r := (s.mem.read (p + 1)).toNat
    let a := (s.wordAt (p + 2)).toNat
    let w := s.cfg.movw.bytes
    (s.cfg.memSize ≤ p + 5 → step s = .next (s.faultedWith 0x22 .addressOutOfBounds s.cfg.memSize)) ∧
    (p + 5 < s.cfg.memSize → 7 ≤ r → step s = .next (s.faultedWith 0x22 .registerOutOfBounds r)) ∧
    (p + 5 < s.cfg.memSize → r < 7 → s.cfg.memSize < a + w →
      step s = .next (s.faultedWith 0x22 .addressOutOfBounds (max a s.cfg.memSize))) ∧
    ∀ h : r < 7, p + 5 < s.cfg.memSize → a + w ≤ s.cfg.memSize →
      ∃ t, step s = .next t ∧ t.pc = s.pc + 6 ∧ SameBesidesPcAndMem s t ∧
        ∀ k, t.mem.read k =
          if a ≤ k ∧ k < a + w then s.regs[r].extractLsb' (8 * (k - a)) 8 else s.mem.read k

/-- R67, the pseudocode of MOV submode 3 from its bytes, for both values of `MOVW`. -/
def Obligations.MovMMHeaderCopiesMemory : Prop :=
  ∀ s : State, s.AtHeader .mov .memToMem → s.mem.wf →
    let p := s.pc.toNat
    let d := (s.wordAt (p + 1)).toNat
    let src := (s.wordAt (p + 5)).toNat
    let w := s.cfg.movw.bytes
    (s.cfg.memSize ≤ p + 8 → step s = .next (s.faultedWith 0x32 .addressOutOfBounds s.cfg.memSize)) ∧
    (p + 8 < s.cfg.memSize → s.cfg.memSize < src + w →
      step s = .next (s.faultedWith 0x32 .addressOutOfBounds (max src s.cfg.memSize))) ∧
    (p + 8 < s.cfg.memSize → src + w ≤ s.cfg.memSize → s.cfg.memSize < d + w →
      step s = .next (s.faultedWith 0x32 .addressOutOfBounds (max d s.cfg.memSize))) ∧
    (p + 8 < s.cfg.memSize → src + w ≤ s.cfg.memSize → d + w ≤ s.cfg.memSize →
      ∃ t, step s = .next t ∧ t.pc = s.pc + 9 ∧ SameBesidesPcAndMem s t ∧
        ∀ k, t.mem.read k = if d ≤ k ∧ k < d + w then s.mem.read (src + (k - d)) else s.mem.read k)

/-! ### The step -/

/-- A step runs the decoded instruction: where bytes in memory at `pc` decode to `i`, a step is `exec i`. The
`pc` still holds the address of the header then; moving it is part of `exec`. -/
def Obligations.StepRunsDecodedInstruction : Prop :=
  ∀ (s : State) (n : Nat) (i : Instr) (rest : List Byte),
    s.status = .run → s.pc.toNat + n ≤ s.cfg.memSize →
    decode (s.mem.readBytes s.pc.toNat n) = .ok (i, rest) → step s = exec i s

/-- The step against the decoder, on all bytes from `pc` to the end of memory: the decoded instruction is run; a header
that names no instruction faults or spins; bytes that end too early raise AddressOutOfBounds at the end of memory, or
at `pc` where even the header lies outside. -/
def Obligations.StepAgreesWithDecoder : Prop :=
  ∀ s : State, s.status = .run →
    match decode (s.mem.readBytes s.pc.toNat (s.cfg.memSize - s.pc.toNat)) with
    | .ok (i, _) => step s = exec i s
    | .error .truncated =>
      step s = .next (s.faultedWith (if s.pc.toNat < s.cfg.memSize then s.mem.read s.pc.toNat else 0)
        .addressOutOfBounds (max s.pc.toNat s.cfg.memSize))
    | .error (.header (.invalidOpcode op)) =>
      step s = match s.cfg.unknownEnc with
        | .fault => .next (s.faultedWith (s.mem.read s.pc.toNat) .invalidOpcode op.toNat)
        | .spin => .next s
    | .error (.header (.invalidTransferMode sm)) =>
      step s = match s.cfg.unknownEnc with
        | .fault => .next (s.faultedWith (s.mem.read s.pc.toNat) .invalidTransferMode sm.toNat)
        | .spin => .next s

/-- R71: an opcode nibble of 5 to 15 raises InvalidOpcode, whatever the submode nibble and the bytes after it; under
`spin` nothing changes. -/
def Obligations.UnknownOpcodeRaises : Prop :=
  ∀ s : State, s.status = .run → s.pc.toNat < s.cfg.memSize →
    let h := s.mem.read s.pc.toNat
    5 ≤ h.toNat % 16 →
      (s.cfg.unknownEnc = .fault → step s = .next (s.faultedWith h .invalidOpcode (h.toNat % 16))) ∧
      (s.cfg.unknownEnc = .spin → step s = .next s)

/-- R72: a submode nibble of 4 to 15 with an opcode nibble of 0 to 4 raises InvalidTransferMode, for every opcode; under
`spin` nothing changes. -/
def Obligations.UnknownSubmodeRaises : Prop :=
  ∀ s : State, s.status = .run → s.pc.toNat < s.cfg.memSize →
    let h := s.mem.read s.pc.toNat
    h.toNat % 16 ≤ 4 → 4 ≤ h.toNat / 16 →
      (s.cfg.unknownEnc = .fault → step s = .next (s.faultedWith h .invalidTransferMode (h.toNat / 16))) ∧
      (s.cfg.unknownEnc = .spin → step s = .next s)

/-- The header case of R69 (a): with `pc` at or above `MEM_SIZE` the header fetch faults, and the record holds 0x00 for
the header. -/
def Obligations.HeaderFetchOutsideMemoryRaises : Prop :=
  ∀ s : State, s.status = .run → s.cfg.memSize ≤ s.pc.toNat →
    step s = .next (s.faultedWith 0x00 .addressOutOfBounds s.pc.toNat)

/-- HALTED and FAULTED have no step, as R22 says. That the machine then stops under a reason of its own for each, in
place of going on in the same state, is the model's choice (notes/assumptions/3.md). -/
def Obligations.TerminalStatesHaveNoStep : Prop :=
  ∀ s : State,
    (s.status = .halted → step s = .fault .halted) ∧
    (s.status = .faulted → step s = .fault .faulted) ∧
    ((∃ t, step s = .next t) → s.status = .run)

/-- In RUN there is always a next state: no instruction and no byte of memory stops the machine without one. -/
def Obligations.RunningMachineAlwaysSteps : Prop :=
  ∀ s : State, s.status = .run → ∃ t, step s = .next t

/-- R74: a step that faults leaves everything but the status and the record, which names the faulting header; and the
value recorded is one R68 gives the cause. -/
def Obligations.FaultEntryIsPrecise : Prop :=
  ∀ s t : State, s.cfg.wf → step s = .next t → t.status = .faulted →
    t.pc = s.pc ∧ t.regs = s.regs ∧ t.flag = s.flag ∧ t.mem = s.mem ∧ t.cfg = s.cfg ∧
      t.fault.fpc = s.pc ∧
      t.fault.fheader = (if s.pc.toNat < s.cfg.memSize then s.mem.read s.pc.toNat else 0) ∧
      FaultValueLegal s.cfg.memSize t.fault.fvalue t.fault.cause

/-- R18: how each form advances `pc`; a fault leaves it; the sum never wraps, and what advances ends in memory or at its
end. -/
def Obligations.PcAdvanceFollowsTable : Prop :=
  ∀ s t : State, s.cfg.wf → step s = .next t →
    (t.status = .faulted → t.pc = s.pc) ∧
    ∀ i, fetch s = .instr i → t.status ≠ .faulted →
      match i with
      | .halt _ => t.pc = s.pc ∧ t.status = .halted
      | .jmpNe _ a =>
        if s.flag = true then t.pc.toNat = s.pc.toNat + 5 ∧ t.pc.toNat ≤ s.cfg.memSize
        else t.pc = a ∧ a.toNat < s.cfg.memSize
      | .inc _ _ => t.pc.toNat = s.pc.toNat + 2 ∧ t.pc.toNat ≤ s.cfg.memSize
      | .movRR _ _ => t.pc.toNat = s.pc.toNat + 2 ∧ t.pc.toNat ≤ s.cfg.memSize
      | .movLoad _ _ => t.pc.toNat = s.pc.toNat + 6 ∧ t.pc.toNat ≤ s.cfg.memSize
      | .movStore _ _ => t.pc.toNat = s.pc.toNat + 6 ∧ t.pc.toNat ≤ s.cfg.memSize
      | .movMM _ _ => t.pc.toNat = s.pc.toNat + 9 ∧ t.pc.toNat ≤ s.cfg.memSize
      | .cmp _ _ _ => t.pc.toNat = s.pc.toNat + 6 ∧ t.pc.toNat ≤ s.cfg.memSize

/-! ### Frames -/

/-- What an instruction leaves alone, for all eight, also where it faults: every register but its destination, the flag
but for CMP, every byte of memory outside the bytes it stores to, the parameters, and, where it does not fault, the
fault record; the status only becomes HALTED by HALT or FAULTED. -/
def Obligations.InstructionFrame : Prop :=
  ∀ (i : Instr) (s t : State), exec i s = .next t →
    (∀ (j : Nat) (hj : j < 7), i.destReg ≠ some j → t.regs[j] = s.regs[j]) ∧
    (i.writesFlag = false → t.flag = s.flag) ∧
    (i.storeTarget = none → ∀ k, t.mem.read k = s.mem.read k) ∧
    (∀ a, i.storeTarget = some a →
      ∀ k, ¬ (effectiveAddress a ≤ k ∧ k < effectiveAddress a + s.cfg.movw.bytes) →
        t.mem.read k = s.mem.read k) ∧
    t.cfg = s.cfg ∧
    (s.status ≠ .faulted → t.status ≠ .faulted → t.fault = s.fault) ∧
    (t.status = s.status ∨ t.status = .faulted ∨ (t.status = .halted ∧ ∃ sm, i = .halt sm))

/-- A store is seen by the very next fetch: where an instruction, MOV submode 2 and MOV submode 3 among them, leaves the
machine in RUN, the next step decodes the bytes that instruction stored, and between and around them the bytes that stood
there before, whatever it stored and wherever the stored bytes lie. -/
def Obligations.StoreIsSeenByNextFetch : Prop :=
  ∀ (s t : State) (n : Nat) (i : Instr) (rest : List Byte),
    s.mem.wf → s.pc.toNat + n ≤ s.cfg.memSize → decode (s.mem.readBytes s.pc.toNat n) = .ok (i, rest) →
    step s = .next t → t.status = .run →
      let p := t.pc.toNat
      match decode ((List.range (s.cfg.memSize - p)).map fun k => s.byteAfter i (p + k)) with
      | .ok (j, _) => step t = exec j t
      | .error .truncated =>
        step t = .next (t.faultedWith (if p < s.cfg.memSize then s.byteAfter i p else 0)
          .addressOutOfBounds (max p s.cfg.memSize))
      | .error (.header (.invalidOpcode op)) =>
        step t = match s.cfg.unknownEnc with
          | .fault => .next (t.faultedWith (s.byteAfter i p) .invalidOpcode op.toNat)
          | .spin => .next t
      | .error (.header (.invalidTransferMode sm)) =>
        step t = match s.cfg.unknownEnc with
          | .fault => .next (t.faultedWith (s.byteAfter i p) .invalidTransferMode sm.toNat)
          | .spin => .next t

/-! ### Whole runs -/

/-- R19: reset clears the flag; only CMP writes it, and only to 1; only JMP_NE reads it (every other instruction does the
same to everything but the flag whatever it holds); and at any time of any run it is set exactly when it was set at the
start or some CMP on the way found its register equal to its immediate. -/
def Obligations.FlagRecordsAnyEqualCompare : Prop :=
  State.reset.flag = false ∧
  (∀ (i : Instr) (s t : State), exec i s = .next t → t.flag ≠ s.flag →
    t.flag = true ∧ ∃ sm r v, i = .cmp sm r v) ∧
  (∀ (i : Instr) (s t : State) (b : Bool), (∀ sm a, i ≠ .jmpNe sm a) → exec i s = .next t →
    ∃ f, exec i { s with flag := b } = .next { t with flag := f }) ∧
  (∀ (k : Nat) (s t : State), runFor k s = .next t →
    (t.flag = true ↔ s.flag = true ∨ ∃ j u, j < k ∧ runFor j s = .next u ∧ FindsEqual u))

/-- R55: a run from RUN ends with a HALT, or ends with a fault, or never ends, exactly one of them, and in one state. -/
def Obligations.RunEndsInExactlyOneWay : Prop :=
  ∀ s : State, s.status = .run →
    ((∃ t, HaltsIn s t) ∨ (∃ t, FaultsIn s t) ∨ RunsForever s) ∧
    ¬ ((∃ t, HaltsIn s t) ∧ ∃ t, FaultsIn s t) ∧
    ¬ ((∃ t, HaltsIn s t) ∧ RunsForever s) ∧
    ¬ ((∃ t, FaultsIn s t) ∧ RunsForever s) ∧
    (∀ t u, HaltsIn s t ∨ FaultsIn s t → HaltsIn s u ∨ FaultsIn s u → t = u)

/-- R8: under `fault`, the default, an unknown header raises its fault; under `spin` the machine repeats the same state for
ever. -/
def Obligations.UnknownHeaderFaultsOrSpins : Prop :=
  State.reset.cfg.unknownEnc = .fault ∧
  ∀ (s : State) (e : HeaderError), s.status = .run → s.pc.toNat < s.cfg.memSize →
    decodeHeader (s.mem.read s.pc.toNat) = .error e →
    (s.cfg.unknownEnc = .fault →
      ∃ t, step s = .next t ∧ t.status = .faulted ∧
        t.fault.cause = match e with
          | .invalidOpcode _ => .invalidOpcode
          | .invalidTransferMode _ => .invalidTransferMode) ∧
    (s.cfg.unknownEnc = .spin → ∀ k, runFor k s = .next s)

/-- A JMP_NE to itself with a clear flag is an endless run of one state, not a fault. -/
def Obligations.JumpToItselfRunsForever : Prop :=
  ∀ (s : State) (sm : Submode), s.AtHeader .jmpNe sm → s.flag = false →
    s.pc.toNat + 4 < s.cfg.memSize → s.wordAt (s.pc.toNat + 1) = s.pc →
      ∀ k, runFor k s = .next s

/-- The invariant: parameters in range, memory canonical and within `MEM_SIZE`, `pc` at most at the end of memory, the
fault record clear before a fault and true after one, HALTED only at a HALT header. Every step keeps it. -/
def Obligations.EveryStepKeepsInvariant : Prop :=
  ∀ s t : State, s.Inv → step s = .next t → t.Inv

/-- The invariant holds right after reset. -/
def Obligations.ResetMeetsInvariant : Prop :=
  State.reset.Inv

/-! ### Reset and the host -/

/-- R81 with the values of R25: reset in any state; memory is not touched and nothing of the run before survives. The
machine right after reset has these values too. -/
def Obligations.ResetGivesItsValues : Prop :=
  (∀ s : State, s.applyReset.pc = 0 ∧ (∀ (i : Nat) (hi : i < 7), s.applyReset.regs[i] = 0) ∧
    s.applyReset.flag = false ∧ s.applyReset.status = .run ∧ s.applyReset.fault = clearRecord ∧
    s.applyReset.mem = s.mem ∧ s.applyReset.cfg = s.cfg) ∧
  (∀ s t : State, s.mem = t.mem → s.cfg = t.cfg → s.applyReset = t.applyReset) ∧
  State.reset.applyReset = State.reset

/-- Reset brings back the invariant from any state whose parameters and memory are in form, whatever the host did while
the machine was stopped. -/
def Obligations.ResetRestoresInvariant : Prop :=
  ∀ s : State, s.cfg.wf → s.mem.wf → s.mem.within s.cfg.memSize → s.applyReset.Inv

/-- The host's image: one that fits below `MEM_SIZE` is loaded, and then it stands in memory, every other byte is as it
was, and the machine is at its reset values, ready to fetch at 0 and in its invariant; one that does not fit is not
loaded. That the load is one move of the host is the model's choice (notes/assumptions/4.md). -/
def Obligations.LoadedImageIsInMemory : Prop :=
  ∀ (s : State) (base : Nat) (bytes : List Byte), s.cfg.wf → s.mem.wf → s.mem.within s.cfg.memSize →
    (base + bytes.length ≤ s.cfg.memSize →
      ∃ t, s.loadImage base bytes = some t ∧
        (∀ (i : Nat) (hi : i < bytes.length), t.mem.read (base + i) = bytes[i]) ∧
        (∀ k, ¬ (base ≤ k ∧ k < base + bytes.length) → t.mem.read k = s.mem.read k) ∧
        t = { s.applyReset with mem := t.mem } ∧ t.Inv) ∧
    (s.cfg.memSize < base + bytes.length → s.loadImage base bytes = none)

/-- The host reads and writes memory only while it holds the core in reset or the machine is stopped, and only inside
memory; a read gives the byte it names and a write changes that byte and nothing else of the machine. That the host holds
the core in reset is an argument of its moves, which is the model's choice (notes/assumptions/9.md). -/
def Obligations.HostAccessesOnlyOutsideARun : Prop :=
  ∀ (s : State) (held : Bool) (a : Nat) (b : Byte), s.mem.wf →
    (s.status = .run → held = false → s.hostWrite held a b = none ∧ s.hostRead held a = none) ∧
    (held = true ∨ s.status ≠ .run →
      (s.cfg.memSize ≤ a → s.hostWrite held a b = none ∧ s.hostRead held a = none) ∧
      (a < s.cfg.memSize →
        s.hostRead held a = some (s.mem.read a) ∧
        ∃ t, s.hostWrite held a b = some t ∧ t = { s with mem := t.mem } ∧ t.mem.wf ∧
          t.mem.read a = b ∧ (∀ k, k ≠ a → t.mem.read k = s.mem.read k) ∧ t.hostRead held a = some b))

/-- An instruction of the opcode table placed where the next fetch reads is the one the next step runs. Placing it, a
word padded with zeros to nine bytes and put at `pc` while the machine is in RUN, is the model's own device and no move
that R26 gives the host (notes/assumptions/4.md). -/
def Obligations.PlacedTableWordRuns : Prop :=
  ∀ (s : State) (nbits w : Nat) (i : Instr), s.status = .run → s.mem.wf →
    s.pc.toNat + maxInstrBytes ≤ s.cfg.memSize → decodeTableWord nbits w = some i →
      step (s.withFetchWord nbits w) = exec i (s.withFetchWord nbits w)
end

