-- ==== Sys2Proof/Laws/Memory.lean ====
section
/-! SUPPORT. The laws of memory: what a write leaves at every address, and that every operation keeps the canonical
form. -/

namespace Sys2Proof.Machine

theorem read_nil (a : Nat) : Memory.read [] a = unlistedByte := rfl

/-- An address that no entry lists reads as an unlisted address does. -/
theorem read_of_not_listed (m : Memory) (a : Nat) (h : ∀ c ∈ m, c.1 ≠ a) : m.read a = unlistedByte := by
  induction m with
  | nil => rfl
  | cons c m ih =>
    have hc := h c (by simp)
    simp only [Memory.read]
    rw [if_neg (fun e => hc e.symm)]
    exact ih fun d hd => h d (by simp [hd])

/-- A write leaves every other address alone, in any list. -/
theorem read_write_of_ne (m : Memory) (a k : Nat) (b : Byte) (h : k ≠ a) : (m.write a b).read k = m.read k := by
  induction m with
  | nil =>
    simp only [Memory.write]
    split <;> simp [Memory.read, h]
  | cons c m ih =>
    obtain ⟨j, v⟩ := c
    simp only [Memory.write]
    split
    · split <;> simp [Memory.read, h]
    · split
      · rename_i hj
        subst hj
        split <;> simp [Memory.read, h]
      · simp only [Memory.read, ih]

/-- Every entry after a write is the written one, which is then no unlisted byte, or one that was there. -/
theorem mem_write {m : Memory} {a : Nat} {b : Byte} {c : Host.Cell} (h : c ∈ m.write a b) :
    (c = (a, b) ∧ b ≠ unlistedByte) ∨ c ∈ m := by
  induction m with
  | nil =>
    simp only [Memory.write] at h
    split at h <;> simp_all
  | cons d m ih =>
    obtain ⟨j, v⟩ := d
    simp only [Memory.write] at h
    split at h
    · split at h <;> simp_all
    · split at h
      · split at h
        · exact .inr (by simp [h])
        · simp_all; tauto
      · rcases List.mem_cons.1 h with h | h
        · exact .inr (by simp [h])
        · rcases ih h with h | h
          · exact .inl h
          · exact .inr (by simp [h])

/-- A write keeps the canonical form. -/
theorem write_wf {m : Memory} (hm : m.wf) (a : Nat) (b : Byte) : (m.write a b).wf := by
  refine ⟨?_, fun c hc => ?_⟩
  · have hp := hm.1
    clear hm
    induction m with
    | nil =>
      simp only [Memory.write]
      split <;> simp
    | cons d m ih =>
      obtain ⟨j, v⟩ := d
      have ⟨hd, hp'⟩ := List.pairwise_cons.1 hp
      simp only [Memory.write]
      split
      · rename_i haj
        split
        · exact hp
        · refine List.pairwise_cons.2 ⟨fun c hc => ?_, hp⟩
          rcases List.mem_cons.1 hc with rfl | hc
          · exact haj
          · exact Nat.lt_trans haj (hd c hc)
      · split
        · rename_i haj
          subst haj
          split
          · exact hp'
          · exact List.pairwise_cons.2 ⟨hd, hp'⟩
        · refine List.pairwise_cons.2 ⟨fun c hc => ?_, ih hp'⟩
          rcases mem_write hc with ⟨rfl, -⟩ | hc
          · dsimp only; omega
          · exact hd c hc
  · rcases mem_write hc with ⟨rfl, hb⟩ | hc
    · exact hb
    · exact hm.2 c hc

/-- A read after a write to the same address gives the byte written. -/
theorem read_write_self {m : Memory} (hm : m.wf) (a : Nat) (b : Byte) : (m.write a b).read a = b := by
  have hp := hm.1
  clear hm
  induction m with
  | nil =>
    simp only [Memory.write]
    split
    · rename_i hb; simp [Memory.read, hb]
    · simp [Memory.read]
  | cons d m ih =>
    obtain ⟨j, v⟩ := d
    have ⟨hd, hp'⟩ := List.pairwise_cons.1 hp
    simp only [Memory.write]
    split
    · rename_i haj
      split
      · rename_i hb
        rw [hb]
        refine read_of_not_listed _ _ fun c hc => ?_
        rcases List.mem_cons.1 hc with rfl | hc
        · exact (Nat.ne_of_lt haj).symm
        · exact (Nat.ne_of_lt (Nat.lt_trans haj (hd c hc))).symm
      · simp [Memory.read]
    · split
      · rename_i haj
        subst haj
        split
        · rename_i hb
          rw [hb]
          exact read_of_not_listed _ _ fun c hc => (Nat.ne_of_lt (hd c hc)).symm
        · simp [Memory.read]
      · rename_i hne
        simp only [Memory.read, if_neg hne]
        exact ih hp'

theorem write_within {n a : Nat} {m : Memory} (hm : m.within n) (b : Byte) (ha : a < n) : (m.write a b).within n := by
  intro c hc
  rcases mem_write hc with ⟨rfl, -⟩ | hc
  · exact ha
  · exact hm c hc

/-- A write of several bytes keeps the canonical form. -/
theorem writeBytes_wf {m : Memory} (hm : m.wf) (a : Nat) (bs : List Byte) : (m.writeBytes a bs).wf := by
  induction bs generalizing m a with
  | nil => exact hm
  | cons b bs ih => exact ih (write_wf hm a b) (a + 1)

theorem writeBytes_within {n a : Nat} {m : Memory} (hm : m.within n) (bs : List Byte) (ha : a + bs.length ≤ n) :
    (m.writeBytes a bs).within n := by
  induction bs generalizing m a with
  | nil => exact hm
  | cons b bs ih =>
    simp only [List.length_cons] at ha
    exact ih (write_within hm b (by omega)) (by omega)

/-- A write of several bytes leaves every address outside its range alone, in any list. -/
theorem read_writeBytes_outside (m : Memory) (a k : Nat) (bs : List Byte) (h : ¬ (a ≤ k ∧ k < a + bs.length)) :
    (m.writeBytes a bs).read k = m.read k := by
  induction bs generalizing m a with
  | nil => rfl
  | cons b bs ih =>
    simp only [List.length_cons] at h
    rw [Memory.writeBytes, ih _ _ (by omega), read_write_of_ne _ _ _ _ (by omega)]

/-- Byte `i` of a write of several bytes stands at `a + i`. -/
theorem read_writeBytes_inside {m : Memory} (hm : m.wf) (a i : Nat) (bs : List Byte) (h : i < bs.length) :
    (m.writeBytes a bs).read (a + i) = bs[i] := by
  induction bs generalizing m a i with
  | nil => simp at h
  | cons b bs ih =>
    rw [Memory.writeBytes]
    cases i with
    | zero =>
      rw [read_writeBytes_outside _ _ _ _ (by omega)]
      exact read_write_self hm a b
    | succ i =>
      have := ih (write_wf hm a b) (a + 1) i (by simpa using h)
      rw [show a + (i + 1) = a + 1 + i by omega, this]
      rfl

@[simp] theorem readBytes_length (m : Memory) (a n : Nat) : (m.readBytes a n).length = n := by
  simp [Memory.readBytes]

theorem readBytes_getElem (m : Memory) (a n i : Nat) (h : i < (m.readBytes a n).length) :
    (m.readBytes a n)[i] = m.read (a + i) := by
  simp [Memory.readBytes]

end Sys2Proof.Machine
end

