-- ==== Sys2Proof/Laws/State.lean ====
section
/-! SUPPORT. What each update of the state leaves in each field. -/

namespace Sys2Proof.Machine

variable (s : State)

@[simp] theorem writeReg_pc (i : Fin 7) (v : Word) : (s.writeReg i v).pc = s.pc := rfl
@[simp] theorem writeReg_regs (i : Fin 7) (v : Word) : (s.writeReg i v).regs = s.regs.set i v := rfl
@[simp] theorem writeReg_flag (i : Fin 7) (v : Word) : (s.writeReg i v).flag = s.flag := rfl
@[simp] theorem writeReg_mem (i : Fin 7) (v : Word) : (s.writeReg i v).mem = s.mem := rfl
@[simp] theorem writeReg_status (i : Fin 7) (v : Word) : (s.writeReg i v).status = s.status := rfl
@[simp] theorem writeReg_fault (i : Fin 7) (v : Word) : (s.writeReg i v).fault = s.fault := rfl
@[simp] theorem writeReg_cfg (i : Fin 7) (v : Word) : (s.writeReg i v).cfg = s.cfg := rfl

@[simp] theorem advance_pc (n : Nat) : (s.advance n).pc = s.pc + BitVec.ofNat 32 n := rfl
@[simp] theorem advance_regs (n : Nat) : (s.advance n).regs = s.regs := rfl
@[simp] theorem advance_flag (n : Nat) : (s.advance n).flag = s.flag := rfl
@[simp] theorem advance_mem (n : Nat) : (s.advance n).mem = s.mem := rfl
@[simp] theorem advance_status (n : Nat) : (s.advance n).status = s.status := rfl
@[simp] theorem advance_fault (n : Nat) : (s.advance n).fault = s.fault := rfl
@[simp] theorem advance_cfg (n : Nat) : (s.advance n).cfg = s.cfg := rfl

@[simp] theorem jump_pc (a : Word) : (s.jump a).pc = a := rfl
@[simp] theorem jump_regs (a : Word) : (s.jump a).regs = s.regs := rfl
@[simp] theorem jump_flag (a : Word) : (s.jump a).flag = s.flag := rfl
@[simp] theorem jump_mem (a : Word) : (s.jump a).mem = s.mem := rfl
@[simp] theorem jump_status (a : Word) : (s.jump a).status = s.status := rfl
@[simp] theorem jump_fault (a : Word) : (s.jump a).fault = s.fault := rfl
@[simp] theorem jump_cfg (a : Word) : (s.jump a).cfg = s.cfg := rfl

@[simp] theorem halt_pc : s.halt.pc = s.pc := rfl
@[simp] theorem halt_regs : s.halt.regs = s.regs := rfl
@[simp] theorem halt_flag : s.halt.flag = s.flag := rfl
@[simp] theorem halt_mem : s.halt.mem = s.mem := rfl
@[simp] theorem halt_status : s.halt.status = .halted := rfl
@[simp] theorem halt_fault : s.halt.fault = s.fault := rfl
@[simp] theorem halt_cfg : s.halt.cfg = s.cfg := rfl

@[simp] theorem setFlag_pc (b : Bool) : (s.setFlag b).pc = s.pc := rfl
@[simp] theorem setFlag_regs (b : Bool) : (s.setFlag b).regs = s.regs := rfl
@[simp] theorem setFlag_flag (b : Bool) : (s.setFlag b).flag = b := rfl
@[simp] theorem setFlag_mem (b : Bool) : (s.setFlag b).mem = s.mem := rfl
@[simp] theorem setFlag_status (b : Bool) : (s.setFlag b).status = s.status := rfl
@[simp] theorem setFlag_fault (b : Bool) : (s.setFlag b).fault = s.fault := rfl
@[simp] theorem setFlag_cfg (b : Bool) : (s.setFlag b).cfg = s.cfg := rfl

@[simp] theorem raise_pc (c : Raise) : (s.raise c).pc = s.pc := rfl
@[simp] theorem raise_regs (c : Raise) : (s.raise c).regs = s.regs := rfl
@[simp] theorem raise_flag (c : Raise) : (s.raise c).flag = s.flag := rfl
@[simp] theorem raise_mem (c : Raise) : (s.raise c).mem = s.mem := rfl
@[simp] theorem raise_status (c : Raise) : (s.raise c).status = .faulted := rfl
@[simp] theorem raise_fault (c : Raise) : (s.raise c).fault =
    { cause := c.cause, fpc := s.pc, fheader := s.headerByte, fvalue := c.value } := rfl
@[simp] theorem raise_cfg (c : Raise) : (s.raise c).cfg = s.cfg := rfl
@[simp] theorem raise_headerByte (c : Raise) : (s.raise c).headerByte = s.headerByte := rfl

@[simp] theorem applyReset_pc : s.applyReset.pc = 0 := rfl
@[simp] theorem applyReset_regs : s.applyReset.regs = Vector.replicate 7 0 := rfl
@[simp] theorem applyReset_flag : s.applyReset.flag = false := rfl
@[simp] theorem applyReset_mem : s.applyReset.mem = s.mem := rfl
@[simp] theorem applyReset_status : s.applyReset.status = .run := rfl
@[simp] theorem applyReset_cfg : s.applyReset.cfg = s.cfg := rfl

@[simp] theorem finish_ok (t : State) : finish s (.ok t) = .next t := rfl
@[simp] theorem finish_error (c : Raise) : finish s (.error c) = .next (s.raise c) := rfl

end Sys2Proof.Machine
end

