-- ==== Sys2Proof/Laws/Ops.lean ====
section
/-! SUPPORT. What each shared operation can do, said once. -/

namespace Sys2Proof.Machine

/-- No address of a range is outside exactly when the range is empty or ends in memory. -/
theorem firstOutside_none {size addr n : Nat} : firstOutside size addr n = none ↔ n = 0 ∨ addr + n ≤ size := by
  simp only [firstOutside, List.find?_eq_none, List.mem_map, List.mem_range, decide_eq_true_eq]
  constructor
  · intro h
    rcases Nat.eq_zero_or_pos n with h0 | h0
    · exact .inl h0
    · have := h (addr + (n - 1)) ⟨n - 1, by omega, rfl⟩
      exact .inr (by omega)
  · rintro h a ⟨i, hi, rfl⟩
    omega

/-- The first outside address is the larger of the range's start and the end of memory (R28, "`= max(addr, MEM_SIZE)`"). -/
theorem firstOutside_some {size addr n a : Nat} (h : firstOutside size addr n = some a) :
    a = max addr size ∧ size < addr + n := by
  simp only [firstOutside, List.find?_map, Option.map_eq_some_iff] at h
  obtain ⟨i, hi, rfl⟩ := h
  rw [List.find?_range_eq_some] at hi
  obtain ⟨h1, h2, h3⟩ := hi
  simp only [Function.comp_apply, decide_eq_true_eq, Bool.not_eq_true', decide_eq_false_iff_not] at h1 h2 h3
  rw [List.mem_range] at h2
  rcases Nat.eq_zero_or_pos i with h0 | h0
  · subst h0; omega
  · have := h3 (i - 1) (by omega)
    omega

/-- A read answers bytes exactly when its range ends in memory. -/
theorem memRead_ok {s : State} {addr n : Nat} (h : addr + n ≤ s.cfg.memSize) :
    s.memRead addr n = .ok (s.mem.readBytes addr n) := by
  simp [State.memRead, firstOutside_none.2 (.inr h)]

theorem memRead_cases (s : State) (addr n : Nat) :
    (s.memRead addr n = .ok (s.mem.readBytes addr n) ∧ (n = 0 ∨ addr + n ≤ s.cfg.memSize)) ∨
    (s.memRead addr n = .error (addressRaise (max addr s.cfg.memSize)) ∧ s.cfg.memSize < addr + n) := by
  unfold State.memRead
  cases h : firstOutside s.cfg.memSize addr n with
  | none => exact .inl ⟨rfl, firstOutside_none.1 h⟩
  | some a => obtain ⟨rfl, h2⟩ := firstOutside_some h; exact .inr ⟨rfl, h2⟩

/-- A write changes memory exactly when its range ends in memory. -/
theorem memWrite_ok {s : State} {addr : Nat} {bs : List Byte} (h : addr + bs.length ≤ s.cfg.memSize) :
    s.memWrite addr bs = .ok { s with mem := s.mem.writeBytes addr bs } := by
  simp [State.memWrite, firstOutside_none.2 (.inr h)]

theorem memWrite_cases (s : State) (addr : Nat) (bs : List Byte) :
    (s.memWrite addr bs = .ok { s with mem := s.mem.writeBytes addr bs } ∧
      (bs = [] ∨ addr + bs.length ≤ s.cfg.memSize)) ∨
    (s.memWrite addr bs = .error (addressRaise (max addr s.cfg.memSize)) ∧ s.cfg.memSize < addr + bs.length) := by
  unfold State.memWrite
  cases h : firstOutside s.cfg.memSize addr bs.length with
  | none => exact .inl ⟨rfl, by simpa using firstOutside_none.1 h⟩
  | some a => obtain ⟨rfl, h2⟩ := firstOutside_some h; exact .inr ⟨rfl, h2⟩

/-- A register operand is a register, or raises with its index. -/
theorem regOperand_cases (r : Nat) :
    (∃ h : r < 7, regOperand r = .ok ⟨r, h⟩) ∨
    (7 ≤ r ∧ regOperand r = .error { cause := .registerOutOfBounds, value := BitVec.ofNat 32 r }) := by
  unfold regOperand
  split
  · rename_i h; exact .inl ⟨h, rfl⟩
  · exact .inr ⟨by omega, rfl⟩

theorem regOperand_ok {r : Nat} (h : r < 7) : regOperand r = .ok ⟨r, h⟩ := by
  simp [regOperand, h]

theorem jumpTarget_cases (s : State) (a : Word) :
    (a.toNat < s.cfg.memSize ∧ jumpTarget s a = .ok a) ∨
    (s.cfg.memSize ≤ a.toNat ∧ jumpTarget s a = .error (addressRaise a.toNat)) := by
  unfold jumpTarget
  split
  · rename_i h; exact .inr ⟨h, rfl⟩
  · exact .inl ⟨by omega, rfl⟩

@[simp] theorem leBytes_length (n : Nat) (v : Word) : (leBytes n v).length = n := by
  simp [leBytes]

@[simp] theorem storedBytes_length (w : MovWidth) (v : Word) : (storedBytes w v).length = w.bytes := by
  simp [storedBytes]

/-- Every end of an instruction is a next state. -/
theorem finish_next (s : State) (r : Except Raise State) :
    (∃ t, r = .ok t ∧ finish s r = .next t) ∨ ∃ c, r = .error c ∧ finish s r = .next (s.raise c) := by
  cases r with
  | ok t => exact .inl ⟨t, rfl, rfl⟩
  | error c => exact .inr ⟨c, rfl, rfl⟩

end Sys2Proof.Machine
end

