-- ==== Sys2Proof/Laws/Meanings.lean ====
section
/-! SUPPORT. What each meaning can do, said once: the states it may end in and when. Later proofs cite these lemmas in
place of the meanings. -/

namespace Sys2Proof.Machine

/-- INC ends in the incremented register or in the fault of its index. -/
theorem execInc_cases (r : Nat) (s : State) :
    (∃ h : r < 7, execInc r s = .next ((s.writeReg ⟨r, h⟩ (s.regs[r] + 1)).advance 2)) ∨
    (7 ≤ r ∧ execInc r s = .next (s.raise { cause := .registerOutOfBounds, value := BitVec.ofNat 32 r })) := by
  rcases regOperand_cases r with ⟨h, e⟩ | ⟨h, e⟩
  · exact .inl ⟨h, by simp [execInc, e, bind, Except.bind, pure, Except.pure, State.readReg]⟩
  · exact .inr ⟨h, by simp [execInc, e, bind, Except.bind]⟩

/-- CMP ends in the flag of its comparison or in the fault of its index. -/
theorem execCmp_cases (r : Nat) (v : Word) (s : State) :
    (∃ h : r < 7, execCmp r v s = .next ((s.setFlag (flagAfterCompare s.flag s.regs[r] v)).advance 6)) ∨
    (7 ≤ r ∧ execCmp r v s = .next (s.raise { cause := .registerOutOfBounds, value := BitVec.ofNat 32 r })) := by
  rcases regOperand_cases r with ⟨h, e⟩ | ⟨h, e⟩
  · exact .inl ⟨h, by simp [execCmp, e, bind, Except.bind, pure, Except.pure, State.readReg]⟩
  · exact .inr ⟨h, by simp [execCmp, e, bind, Except.bind]⟩

/-- MOV submode 0 ends in the copied register or in the fault of an index, the source's first. -/
theorem execMovRR_cases (a b : Nat) (s : State) :
    (∃ (_ : a < 7) (hb : b < 7), execMovRR a b s = .next ((s.writeReg ⟨b, hb⟩ s.regs[a]).advance 2)) ∨
    (7 ≤ a ∧ execMovRR a b s = .next (s.raise { cause := .registerOutOfBounds, value := BitVec.ofNat 32 a })) ∨
    (a < 7 ∧ 7 ≤ b ∧
      execMovRR a b s = .next (s.raise { cause := .registerOutOfBounds, value := BitVec.ofNat 32 b })) := by
  rcases regOperand_cases a with ⟨ha, ea⟩ | ⟨ha, ea⟩
  · rcases regOperand_cases b with ⟨hb, eb⟩ | ⟨hb, eb⟩
    · exact .inl ⟨ha, hb, by simp [execMovRR, ea, eb, bind, Except.bind, pure, Except.pure, State.readReg]⟩
    · exact .inr (.inr ⟨ha, hb, by simp [execMovRR, ea, eb, bind, Except.bind]⟩)
  · exact .inr (.inl ⟨ha, by simp [execMovRR, ea, bind, Except.bind]⟩)

/-- MOV submode 1 ends in the loaded register, in the fault of its index or in the fault of its address. -/
theorem execMovLoad_cases (r : Nat) (a : Word) (s : State) :
    (∃ h : r < 7, effectiveAddress a + s.cfg.movw.bytes ≤ s.cfg.memSize ∧
      execMovLoad r a s = .next ((s.writeReg ⟨r, h⟩
        (loadedWord (s.mem.readBytes (effectiveAddress a) s.cfg.movw.bytes))).advance 6)) ∨
    (7 ≤ r ∧ execMovLoad r a s = .next (s.raise { cause := .registerOutOfBounds, value := BitVec.ofNat 32 r })) ∨
    (r < 7 ∧ s.cfg.memSize < effectiveAddress a + s.cfg.movw.bytes ∧
      execMovLoad r a s = .next (s.raise (addressRaise (max (effectiveAddress a) s.cfg.memSize)))) := by
  rcases regOperand_cases r with ⟨h, e⟩ | ⟨h, e⟩
  · rcases memRead_cases s (effectiveAddress a) s.cfg.movw.bytes with ⟨em, hm⟩ | ⟨em, hm⟩
    · refine .inl ⟨h, ?_, by simp [execMovLoad, e, em, bind, Except.bind, pure, Except.pure]⟩
      cases hw : s.cfg.movw <;> simp_all [MovWidth.bytes]
    · exact .inr (.inr ⟨h, hm, by simp [execMovLoad, e, em, bind, Except.bind]⟩)
  · exact .inr (.inl ⟨h, by simp [execMovLoad, e, bind, Except.bind]⟩)

/-- MOV submode 2 ends in the written memory, in the fault of its index or in the fault of its address. -/
theorem execMovStore_cases (r : Nat) (a : Word) (s : State) :
    (∃ _ : r < 7, effectiveAddress a + s.cfg.movw.bytes ≤ s.cfg.memSize ∧
      execMovStore r a s = .next (State.advance { s with
        mem := s.mem.writeBytes (effectiveAddress a) (storedBytes s.cfg.movw s.regs[r]) } 6)) ∨
    (7 ≤ r ∧ execMovStore r a s = .next (s.raise { cause := .registerOutOfBounds, value := BitVec.ofNat 32 r })) ∨
    (r < 7 ∧ s.cfg.memSize < effectiveAddress a + s.cfg.movw.bytes ∧
      execMovStore r a s = .next (s.raise (addressRaise (max (effectiveAddress a) s.cfg.memSize)))) := by
  rcases regOperand_cases r with ⟨h, e⟩ | ⟨h, e⟩
  · rcases memWrite_cases s (effectiveAddress a) (storedBytes s.cfg.movw s.regs[r]) with
      ⟨em, hm⟩ | ⟨em, hm⟩
    · refine .inl ⟨h, ?_, by simp [execMovStore, e, em, bind, Except.bind, pure, Except.pure, State.readReg]⟩
      rcases hm with hm | hm
      · have hl := congrArg List.length hm
        rw [storedBytes_length] at hl
        cases hw : s.cfg.movw <;> simp [hw, MovWidth.bytes] at hl
      · simpa using hm
    · rw [storedBytes_length] at hm
      exact .inr (.inr ⟨h, hm, by simp [execMovStore, e, em, bind, Except.bind, State.readReg]⟩)
  · exact .inr (.inl ⟨h, by simp [execMovStore, e, bind, Except.bind]⟩)

/-- MOV submode 3 ends in the written memory, in the fault of its source or in the fault of its destination. -/
theorem execMovMM_cases (d src : Word) (s : State) :
    (effectiveAddress src + s.cfg.movw.bytes ≤ s.cfg.memSize ∧
      effectiveAddress d + s.cfg.movw.bytes ≤ s.cfg.memSize ∧
      execMovMM d src s = .next (State.advance { s with
        mem := s.mem.writeBytes (effectiveAddress d)
          (s.mem.readBytes (effectiveAddress src) s.cfg.movw.bytes) } 9)) ∨
    (s.cfg.memSize < effectiveAddress src + s.cfg.movw.bytes ∧
      execMovMM d src s = .next (s.raise (addressRaise (max (effectiveAddress src) s.cfg.memSize)))) ∨
    (effectiveAddress src + s.cfg.movw.bytes ≤ s.cfg.memSize ∧
      s.cfg.memSize < effectiveAddress d + s.cfg.movw.bytes ∧
      execMovMM d src s = .next (s.raise (addressRaise (max (effectiveAddress d) s.cfg.memSize)))) := by
  have hpos : 0 < s.cfg.movw.bytes := by cases s.cfg.movw <;> simp [MovWidth.bytes]
  rcases memRead_cases s (effectiveAddress src) s.cfg.movw.bytes with ⟨em, hm⟩ | ⟨em, hm⟩
  · have hm : effectiveAddress src + s.cfg.movw.bytes ≤ s.cfg.memSize := by omega
    rcases memWrite_cases s (effectiveAddress d) (s.mem.readBytes (effectiveAddress src) s.cfg.movw.bytes) with
      ⟨ew, hw⟩ | ⟨ew, hw⟩
    · refine .inl ⟨hm, ?_, by simp [execMovMM, em, ew, bind, Except.bind, pure, Except.pure]⟩
      rcases hw with hw | hw
      · have := congrArg List.length hw
        simp at this; omega
      · simpa using hw
    · rw [readBytes_length] at hw
      exact .inr (.inr ⟨hm, hw, by simp [execMovMM, em, ew, bind, Except.bind]⟩)
  · exact .inr (.inl ⟨hm, by simp [execMovMM, em, bind, Except.bind]⟩)

/-- JMP_NE falls through, jumps, or ends in the fault of its target. -/
theorem execJmpNe_cases (a : Word) (s : State) :
    (s.flag = true ∧ execJmpNe a s = .next (s.advance 5)) ∨
    (s.flag = false ∧ a.toNat < s.cfg.memSize ∧ execJmpNe a s = .next (s.jump a)) ∨
    (s.flag = false ∧ s.cfg.memSize ≤ a.toNat ∧ execJmpNe a s = .next (s.raise (addressRaise a.toNat))) := by
  cases hf : s.flag with
  | true => exact .inl ⟨rfl, by simp [execJmpNe, jumpTaken, hf, pure, Except.pure]⟩
  | false =>
    rcases jumpTarget_cases s a with ⟨h, e⟩ | ⟨h, e⟩
    · exact .inr (.inl ⟨rfl, h, by simp [execJmpNe, jumpTaken, hf, e, bind, Except.bind, pure, Except.pure]⟩)
    · exact .inr (.inr ⟨rfl, h, by simp [execJmpNe, jumpTaken, hf, e, bind, Except.bind]⟩)

end Sys2Proof.Machine
end

