-- ==== Sys2Proof/Laws/PerInstr.lean ====
section
/-! SUPPORT. Statements about every instruction as syntax, one lemma per constructor. -/

namespace Sys2Proof.Laws.EncodedLength

/-- The encoder gives as many bytes as the instruction is long (spec/30_encoding.md R42). -/
def Statement (i : Instr) : Prop := (encode i).length = i.length

theorem halt (sm : Submode) : Statement (.halt sm) := rfl
theorem inc (sm : Submode) (r : Nat) : Statement (.inc sm r) := rfl
theorem movRR (a b : Nat) : Statement (.movRR a b) := rfl
theorem movLoad (r : Nat) (a : Word) : Statement (.movLoad r a) := by simp [Statement, encode, leBytes, Instr.length]
theorem movStore (r : Nat) (a : Word) : Statement (.movStore r a) := by simp [Statement, encode, leBytes, Instr.length]
theorem movMM (d src : Word) : Statement (.movMM d src) := by simp [Statement, encode, leBytes, Instr.length]
theorem cmp (sm : Submode) (r : Nat) (v : Word) : Statement (.cmp sm r v) := by
  simp [Statement, encode, leBytes, Instr.length]
theorem jmpNe (sm : Submode) (a : Word) : Statement (.jmpNe sm a) := by simp [Statement, encode, leBytes, Instr.length]

end Sys2Proof.Laws.EncodedLength
end

