-- ==== Sys2Proof/Laws/Step.lean ====
section
/-! SUPPORT. What fetching and a step can do, said once. -/

namespace Sys2Proof.Machine

@[simp] theorem operandByte_readBytes (m : Memory) (a n i : Nat) (h : i < n) :
    operandByte (m.readBytes a n) i = m.read (a + i) := by
  simp [operandByte, List.getD_eq_getElem?_getD, Memory.readBytes, h]

/-- The four ways a fetch can end, with what each says of memory. -/
theorem fetch_cases (s : State) :
    (s.cfg.memSize ≤ s.pc.toNat ∧ fetch s = .raised (addressRaise s.pc.toNat)) ∨
    (s.pc.toNat < s.cfg.memSize ∧ ∃ e, decodeHeader (s.mem.read s.pc.toNat) = .error e ∧
      fetch s = unknownHeader s.cfg.unknownEnc e) ∨
    (s.pc.toNat < s.cfg.memSize ∧ ∃ hd, decodeHeader (s.mem.read s.pc.toNat) = .ok hd ∧
      s.cfg.memSize < s.pc.toNat + 1 + hd.operandBytes ∧ fetch s = .raised (addressRaise s.cfg.memSize)) ∨
    (∃ hd, decodeHeader (s.mem.read s.pc.toNat) = .ok hd ∧
      s.pc.toNat + 1 + hd.operandBytes ≤ s.cfg.memSize ∧
      fetch s = .instr (hd.instr (s.mem.readBytes (s.pc.toNat + 1) hd.operandBytes))) := by
  rcases memRead_cases s s.pc.toNat 1 with ⟨e1, h1⟩ | ⟨e1, h1⟩
  · have hpc : s.pc.toNat < s.cfg.memSize := by omega
    cases hd : decodeHeader (s.mem.read s.pc.toNat) with
    | error e => exact .inr (.inl ⟨hpc, e, rfl, by simp [fetch, e1, hd]⟩)
    | ok hdr =>
      rcases memRead_cases s (s.pc.toNat + 1) hdr.operandBytes with ⟨e2, h2⟩ | ⟨e2, h2⟩
      · exact .inr (.inr (.inr ⟨hdr, rfl, by omega, by simp [fetch, e1, hd, e2]⟩))
      · rw [max_eq_right (by omega)] at e2
        exact .inr (.inr (.inl ⟨hpc, hdr, rfl, h2, by simp [fetch, e1, hd, e2]⟩))
  · rw [max_eq_left (by omega)] at e1
    exact .inl ⟨by omega, by simp [fetch, e1]⟩

/-- In RUN a step is fetch, then exec, the fault taken or the spin. -/
theorem step_of_run {s : State} (h : s.status = .run) :
    step s = match fetch s with
      | .instr i => exec i s
      | .raised c => .next (s.raise c)
      | .spin => .next s := by
  obtain ⟨pc, regs, flag, mem, status, fault, cfg⟩ := s
  dsimp only at h
  subst h
  rfl

/-- A step with a next state is a step from RUN: an instruction, a fault taken, or a spin. -/
theorem step_cases {s t : State} (h : step s = .next t) :
    s.status = .run ∧
      ((∃ i, fetch s = .instr i ∧ exec i s = .next t) ∨ (∃ c, fetch s = .raised c ∧ t = s.raise c) ∨
        (fetch s = .spin ∧ t = s)) := by
  unfold step at h
  cases hs : s.status with
  | halted => simp [hs] at h
  | faulted => simp [hs] at h
  | run =>
    refine ⟨rfl, ?_⟩
    rw [hs] at h
    cases hf : fetch s with
    | instr i => exact .inl ⟨i, rfl, by simpa [hf] using h⟩
    | raised c => exact .inr (.inl ⟨c, rfl, by simpa [hf] using h.symm⟩)
    | spin => exact .inr (.inr ⟨rfl, by simpa [hf] using h.symm⟩)

end Sys2Proof.Machine
end

