-- ==== Sys2Proof/Laws/Runs.lean ====
section
/-! SUPPORT. Runs, one step at a time, from the front and from the end, and the byte an instruction leaves where it
stores none. -/

namespace Sys2Proof.Machine

/-- An instruction that stores nothing leaves every byte. -/
theorem byteAfter_of_no_store {s : State} {i : Instr} (h : i.storeTarget = none) (k : Nat) :
    s.byteAfter i k = s.mem.read k := by
  cases i <;> first | rfl | simp [Instr.storeTarget] at h

@[simp] theorem runFor_zero (s : State) : runFor 0 s = .next s := rfl

/-- The first step of a run. -/
theorem runFor_succ (k : Nat) (s t : State) : runFor (k + 1) s = .next t ↔ ∃ u, step s = .next u ∧ runFor k u = .next t := by
  have hs : Sys2Proof.core.step s = step s := rfl
  simp only [runFor, Host.Core.run]
  rw [hs]
  cases step s <;> simp

/-- The last step of a run. -/
theorem runFor_snoc (k : Nat) (s t : State) : runFor (k + 1) s = .next t ↔ ∃ u, runFor k s = .next u ∧ step u = .next t := by
  induction k generalizing s with
  | zero => simp [runFor_succ]
  | succ k ih =>
    rw [runFor_succ]
    constructor
    · rintro ⟨v, h1, h2⟩
      obtain ⟨u, h3, h4⟩ := (ih v).1 h2
      exact ⟨u, (runFor_succ k s u).2 ⟨v, h1, h3⟩, h4⟩
    · rintro ⟨u, h1, h2⟩
      obtain ⟨v, h3, h4⟩ := (runFor_succ k s u).1 h1
      exact ⟨v, h3, (ih v).2 ⟨u, h4, h2⟩⟩

end Sys2Proof.Machine
end

