-- ==== Sys2Proof/Tests/Slice0.lean ====
section
/-! SUPPORT. The model's own tests: what well-formedness refuses, a word of every form written out from
spec/30_encoding.md R46, vectors of spec/95_test_vectors.md (each named after its vector), and, for every statement that
has hypotheses, a state and operands that meet them. -/

namespace Sys2Proof.Machine.Tests

/-! ### Helpers -/

/-- The next state of an outcome. -/
def next? : Host.Outcome State Fault Refusal → Option State
  | .next s => some s
  | .fault _ => none
  | .refused _ => none

/-- Why an outcome has no next state. -/
def fault? : Host.Outcome State Fault Refusal → Option Fault
  | .next _ => none
  | .fault f => some f
  | .refused _ => none

/-- The reset state with bytes placed from an address on. -/
def loaded (a : Nat) (bytes : List Byte) : State :=
  { State.reset with mem := Memory.writeBytes [] a bytes }

/-- A state with the given bytes at `pc`, in a memory of 16 bytes. -/
def tiny (pc : Word) (w : MovWidth) (bytes : List Byte) : State :=
  { State.reset with
    pc := pc
    mem := Memory.writeBytes [] pc.toNat bytes
    cfg := { memSize := 16, movw := w, unknownEnc := .fault } }

/-- `x[i]` set to a value. -/
def setReg (s : State) (i : Fin 7) (v : Word) : State := s.writeReg i v

/-! ### Well-formedness -/

theorem test_wellFormed_refuses_inc_256 : (Instr.inc .regToReg 256).WellFormed = false := by decide
theorem test_wellFormed_refuses_source_nibble_16 : (Instr.movRR 16 0).WellFormed = false := by decide
theorem test_wellFormed_refuses_destination_nibble_16 : (Instr.movRR 0 16).WellFormed = false := by decide
theorem test_wellFormed_refuses_load_256 : (Instr.movLoad 256 0).WellFormed = false := by decide
theorem test_wellFormed_refuses_store_256 : (Instr.movStore 256 0).WellFormed = false := by decide
theorem test_wellFormed_refuses_cmp_256 : (Instr.cmp .regToReg 256 0).WellFormed = false := by decide

/-! ### Decoding: each word written out from R46 -/

theorem test_decode_halt : (decode [0x20]).toOption = some (.halt .regToMem, []) := by decide
theorem test_decode_inc : (decode [0x01, 0xFF, 0x77]).toOption = some (.inc .regToReg 255, [0x77]) := by decide
theorem test_decode_movRR : (decode [0x02, 0x21]).toOption = some (.movRR 2 1, []) := by decide
theorem test_decode_movLoad :
    (decode [0x12, 0x05, 0x78, 0x56, 0x34, 0x92]).toOption = some (.movLoad 5 0x92345678, []) := by decide
theorem test_decode_movStore :
    (decode [0x22, 0x05, 0x78, 0x56, 0x34, 0x92]).toOption = some (.movStore 5 0x92345678, []) := by decide
theorem test_decode_movMM :
    (decode [0x32, 0x04, 0x03, 0x02, 0x01, 0x08, 0x07, 0x06, 0x05]).toOption
      = some (.movMM 0x01020304 0x05060708, []) := by decide
theorem test_decode_cmp :
    (decode [0x33, 0x06, 0xFF, 0xFE, 0xFD, 0xFC]).toOption = some (.cmp .memToMem 6 0xFCFDFEFF, []) := by decide
theorem test_decode_jmpNe :
    (decode [0x14, 0x01, 0x02, 0x03, 0x84]).toOption = some (.jmpNe .memToReg 0x84030201, []) := by decide
theorem test_decode_rejects_opcode_before_submode : decode [0xF5] = .error (.header (.invalidOpcode 5)) := rfl
theorem test_decode_rejects_submode : decode [0x42] = .error (.header (.invalidTransferMode 4)) := rfl
theorem test_decode_rejects_short : decode [0x32, 0, 0, 0, 0, 0, 0, 0] = .error .truncated := rfl
theorem test_encode_movMM :
    encode (.movMM 0x22 0x21) = [0x32, 0x22, 0x00, 0x00, 0x00, 0x21, 0x00, 0x00, 0x00] := by decide
theorem test_decodeTableWord : decodeTableWord 48 0x000000130012 = some (.movLoad 0 0x13) := by decide
theorem test_withFetchWord_runs :
    (next? (step (State.reset.withFetchWord 16 0x0301))).map (fun t => (t.regs[3], t.pc)) = some (1, 2) := by decide

/-! ### Vectors of spec/95_test_vectors.md part B -/

theorem test_B0_2 : (next? (step (loaded 0 [0x10]))).map (fun t => (t.status, t.pc)) = some (.halted, 0) := by decide
theorem test_B0_3 : (next? (step (loaded 0 [0x40]))).map (·.fault)
    = some ⟨.invalidTransferMode, 0, 0x40, 4⟩ := by decide
theorem test_B0_5 : (next? (step (loaded 0 [0xF5]))).map (·.fault) = some ⟨.invalidOpcode, 0, 0xF5, 5⟩ := by decide
theorem test_B0_8 : (next? (step { State.reset with pc := 0xFFFF })).map (·.fault)
    = some ⟨.addressOutOfBounds, 0xFFFF, 0x00, 0xFFFF⟩ := by decide
theorem test_B0_9 : (next? (step { loaded 0xFFFD [0x01, 0x00] with pc := 0xFFFD })).map
    (fun t => (t.regs[0], t.pc, t.status)) = some (1, 0xFFFF, .run) := by decide
theorem test_B0_10 : (next? (step { loaded 0xFFFE [0x01] with pc := 0xFFFE })).map (·.fault)
    = some ⟨.addressOutOfBounds, 0xFFFE, 0x01, 0xFFFF⟩ := by decide
theorem test_B1_3 : (next? (step (setReg (loaded 0 [0x01, 0x06]) 6 0xFFFFFFFF))).map
    (fun t => (t.regs[6], t.pc, t.flag)) = some (0, 2, false) := by decide
theorem test_B1_5 : (next? (step (loaded 0 [0x01, 0xFF]))).map (·.fault)
    = some ⟨.registerOutOfBounds, 0, 0x01, 255⟩ := by decide
theorem test_B2_3 : (next? (step { loaded 0 [0x03, 0x00, 0x05] with flag := true })).map
    (fun t => (t.flag, t.pc)) = some (true, 6) := by decide
theorem test_B2_6 : (next? (step (setReg (loaded 0 [0x03, 0x01, 0x0A]) 1 0x0A000000))).map
    (fun t => (t.flag, t.pc)) = some (false, 6) := by decide
theorem test_B3_4 : (next? (step (loaded 0 [0x04, 0xFF, 0xFF]))).map (fun t => (t.fault, t.pc))
    = some (⟨.addressOutOfBounds, 0, 0x04, 0xFFFF⟩, 0) := by decide
theorem test_B3_6 : (next? (step { loaded 0 [0x04, 0xFF, 0xFF] with flag := true })).map
    (fun t => (t.pc, t.status)) = some (5, .run) := by decide
theorem test_B4_1 : (next? (step (setReg (setReg (loaded 0 [0x02, 0x21]) 1 5) 2 9))).map
    (fun t => (t.regs[1], t.regs[2], t.pc)) = some (9, 9, 2) := by decide
theorem test_B4_5 : (next? (step (loaded 0 [0x02, 0xFF]))).map (·.fault)
    = some ⟨.registerOutOfBounds, 0, 0x02, 15⟩ := by decide

/-- Memory of B4.6 and B4.7. -/
def memB4_6 : State :=
  let s := loaded 0 [0x12, 0x03, 0x40]
  { s with mem := s.mem.writeBytes 0x40 [0x80, 0x01, 0x02, 0x03] }

theorem test_B4_6 : (next? (step memB4_6)).map (fun t => (t.regs[3], t.pc)) = some (0x80, 6) := by decide
theorem test_B4_7 : (next? (step { memB4_6 with cfg := { defaultConfig with movw := .four } })).map
    (fun t => (t.regs[3], t.pc)) = some (0x03020180, 6) := by decide

/-- The state of B4.13 and B4.14. -/
def stateB4_13 : State := setReg (loaded 0 [0x22, 0x04, 0x40]) 4 0x12345678

theorem test_B4_13 : (next? (step stateB4_13)).map (fun t => t.mem.readBytes 0x40 4) = some [0x78, 0, 0, 0] := by
  decide
theorem test_B4_14 : (next? (step { stateB4_13 with cfg := { defaultConfig with movw := .four } })).map
    (fun t => (t.mem.readBytes 0x40 4, t.pc)) = some ([0x78, 0x56, 0x34, 0x12], 6) := by decide

/-- Memory of B4.17 and B4.18. -/
def memB4_17 : State :=
  let s := loaded 0 [0x32, 0x41, 0, 0, 0, 0x40]
  { s with mem := s.mem.writeBytes 0x40 [0xA0, 0xA1, 0xA2, 0xA3, 0xA4] }

theorem test_B4_17 : (next? (step memB4_17)).map (fun t => t.mem.readBytes 0x40 5)
    = some [0xA0, 0xA0, 0xA2, 0xA3, 0xA4] := by decide
theorem test_B4_18 : (next? (step { memB4_17 with cfg := { defaultConfig with movw := .four } })).map
    (fun t => (t.mem.readBytes 0x40 5, t.pc)) = some ([0xA0, 0xA0, 0xA1, 0xA2, 0xA3], 9) := by decide
theorem test_B4_19 : (next? (step (loaded 0 [0x32, 0xFF, 0xFF, 0, 0, 0, 0, 1, 0]))).map (·.fault)
    = some ⟨.addressOutOfBounds, 0, 0x32, 0x10000⟩ := by decide
theorem test_halted_has_no_step : fault? (step { State.reset with status := .halted }) = some .halted := by decide
theorem test_fault_codes : [FaultCause.noFault, .addressOutOfBounds, .registerOutOfBounds, .invalidOpcode,
    .invalidTransferMode].map FaultCause.code = [0, 1, 2, 3, 4] := by decide
theorem test_printed_result_is_signed :
    ({ (setReg State.reset 0 0x80000000) with status := .halted }).printedResult = some (-2147483648) := by decide

/-! ### Witnesses: the hypotheses of each statement are met -/

theorem witness_DecodeOfEncode : (Instr.movRR 15 15).WellFormed = true ∧ (Instr.cmp .memToMem 255 0).WellFormed = true := by
  decide
theorem witness_EncodeOfDecode : decode [0x01, 0x03, 0xAA] = .ok (.inc .regToReg 3, [0xAA]) := rfl
theorem witness_LengthFollowsFromHeaderAlone : decode (0x02 :: [0x70, 0xAA]) = .ok (.movRR 7 0, [0xAA]) := rfl
theorem witness_MemReadFollowsRule :
    (12 + 4 ≤ (tiny 0 .one []).cfg.memSize ∧ (tiny 0 .one []).cfg.memSize < 13 + 4) ∧
    15 + 1 ≤ (tiny 0 .one []).cfg.memSize ∧ (tiny 0 .one []).cfg.memSize < 16 + 1 := by decide
theorem witness_MemWriteFollowsRule :
    (tiny 0 .one [1, 0, 2]).mem.wf ∧ 12 + 4 ≤ (tiny 0 .one []).cfg.memSize ∧ (tiny 0 .one []).cfg.memSize < 13 + 4 := by
  decide
theorem witness_EqualMemoriesAreEqualData :
    let m := Memory.write (Memory.write [] 5 1) 3 2
    let m' := Memory.write (Memory.write (Memory.write [] 3 2) 4 7) 5 1
    m.wf ∧ (m'.write 4 0).wf ∧ ∀ a, m.read a = (m'.write 4 0).read a := by
  refine ⟨by decide, by decide, fun a => rfl⟩
theorem witness_StoreThenLoadReadsBack :
    (tiny 0 .four []).mem.wf ∧ (12#32).toNat + (tiny 0 .four []).cfg.movw.bytes ≤ (tiny 0 .four []).cfg.memSize ∧
    (15#32).toNat + (tiny 0 .one []).cfg.movw.bytes ≤ (tiny 0 .one []).cfg.memSize := by decide
theorem witness_IncCompletes :
    ∃ h : 6 < 7, exec (.inc .regToReg 6) State.reset
      = .next { State.reset with regs := State.reset.regs.set 6 1 h, pc := 2 } := ⟨by decide, rfl⟩
theorem witness_CmpCompletes : 6 < 7 ∧
    exec (.cmp .regToReg 6 0) State.reset = .next { State.reset with flag := true, pc := 6 } := ⟨by decide, rfl⟩
theorem witness_JmpNeCompletes :
    (({ State.reset with flag := true }).flag = true ∨ (0xFFFF#32).toNat < State.reset.cfg.memSize) ∧
    (State.reset.flag = true ∨ (0xFFFE#32).toNat < State.reset.cfg.memSize) := by decide
theorem witness_MovRRCompletes : 6 < 7 ∧ 0 < 7 ∧
    exec (.movRR 6 0) State.reset = .next { State.reset with pc := 2 } := ⟨by decide, by decide, rfl⟩
theorem witness_MovLoadCompletes :
    6 < 7 ∧ effectiveAddress 12 + (tiny 0 .four []).cfg.movw.bytes ≤ (tiny 0 .four []).cfg.memSize ∧
    effectiveAddress 15 + (tiny 0 .one []).cfg.movw.bytes ≤ (tiny 0 .one []).cfg.memSize := by decide
theorem witness_MovStoreCompletes :
    6 < 7 ∧ (tiny 0 .four [3]).mem.wf ∧
    effectiveAddress 12 + (tiny 0 .four [3]).cfg.movw.bytes ≤ (tiny 0 .four [3]).cfg.memSize := by decide
theorem witness_MovMMCompletes :
    (tiny 0 .four [3]).mem.wf ∧
    effectiveAddress 11 + (tiny 0 .four [3]).cfg.movw.bytes ≤ (tiny 0 .four [3]).cfg.memSize ∧
    effectiveAddress 12 + (tiny 0 .four [3]).cfg.movw.bytes ≤ (tiny 0 .four [3]).cfg.memSize := by decide
theorem witness_RepeatedIncAddsItsCount : 6 < 7 := by decide
theorem witness_RegisterIndexTraps_operands :
    (7 ≤ 7 ∧ 7 ≤ 255) ∧ (7 ≤ 255 ∧ 255 ≤ 255) ∧ (7 ≤ 15 ∧ 15 ≤ 15) ∧ (6 < 7 ∧ 7 ≤ 7 ∧ 7 ≤ 15) := by decide
theorem witness_RegisterIndexTraps_other_fault :
    State.reset.status ≠ .faulted ∧
    (next? (exec (.jmpNe .regToReg 0xFFFF) State.reset)).map (fun t => (t.status, t.fault.cause))
      = some (.faulted, .addressOutOfBounds) := by decide
theorem witness_DataAddressTraps :
    (tiny 0 .four []).cfg.memSize < (13#32).toNat + (tiny 0 .four []).cfg.movw.bytes ∧
    (12#32).toNat + (tiny 0 .four []).cfg.movw.bytes ≤ (tiny 0 .four []).cfg.memSize ∧
    (tiny 0 .four []).flag = false ∧ (tiny 0 .four []).cfg.memSize ≤ (16#32).toNat := by decide
theorem witness_HaltHeaderEndsTheRun : (tiny 15 .one [0x30]).AtHeader .halt .memToMem := ⟨rfl, by decide, rfl⟩
theorem witness_IncHeaderIncrementsRegister :
    (tiny 15 .one [0x01]).AtHeader .inc .regToReg ∧ (tiny 14 .one [0x31, 6]).AtHeader .inc .memToMem :=
  ⟨⟨rfl, by decide, rfl⟩, rfl, by decide, rfl⟩
theorem witness_CmpHeaderSetsFlagOnEquality :
    (tiny 11 .one [0x03]).AtHeader .cmp .regToReg ∧ (tiny 10 .one [0x23, 7]).AtHeader .cmp .regToMem :=
  ⟨⟨rfl, by decide, rfl⟩, rfl, by decide, rfl⟩
theorem witness_JmpNeHeaderJumpsWhileFlagClear :
    (tiny 12 .one [0x04]).AtHeader .jmpNe .regToReg ∧ (tiny 11 .one [0x14, 16]).AtHeader .jmpNe .memToReg :=
  ⟨⟨rfl, by decide, rfl⟩, rfl, by decide, rfl⟩
theorem witness_MovRRHeaderCopiesRegister :
    (tiny 15 .one [0x02]).AtHeader .mov .regToReg ∧ (tiny 14 .one [0x02, 0x67]).AtHeader .mov .regToReg :=
  ⟨⟨rfl, by decide, rfl⟩, rfl, by decide, rfl⟩
theorem witness_MovLoadHeaderLoadsRegister :
    (tiny 11 .one [0x12]).AtHeader .mov .memToReg ∧ (tiny 10 .four [0x12, 6, 12]).AtHeader .mov .memToReg :=
  ⟨⟨rfl, by decide, rfl⟩, rfl, by decide, rfl⟩

/-- A store at the last place its six bytes fit. -/
def storeAt10 (r a : Byte) : State := tiny 10 .four [0x22, r, a]

theorem witness_MovStoreHeaderStoresRegister :
    (tiny 11 .one [0x22]).AtHeader .mov .regToMem ∧ (tiny 11 .one [0x22]).mem.wf ∧
    (storeAt10 7 0).AtHeader .mov .regToMem ∧ (storeAt10 7 0).mem.wf ∧
    (storeAt10 6 13).AtHeader .mov .regToMem ∧ (storeAt10 6 13).mem.wf ∧
    (storeAt10 6 12).AtHeader .mov .regToMem ∧ (storeAt10 6 12).mem.wf ∧
    ((storeAt10 6 12).wordAt 12).toNat + 4 ≤ 16 ∧ 16 < ((storeAt10 6 13).wordAt 12).toNat + 4 := by
  refine ⟨⟨rfl, ?_, rfl⟩, ?_, ⟨rfl, ?_, rfl⟩, ?_, ⟨rfl, ?_, rfl⟩, ?_, ⟨rfl, ?_, rfl⟩, ?_⟩ <;> decide

/-- A copy at the last place its nine bytes fit. -/
def copyAt7 (d src : Byte) : State := tiny 7 .four [0x32, d, 0, 0, 0, src]

theorem witness_MovMMHeaderCopiesMemory :
    (tiny 8 .one [0x32]).AtHeader .mov .memToMem ∧ (tiny 8 .one [0x32]).mem.wf ∧
    (copyAt7 13 12).AtHeader .mov .memToMem ∧ (copyAt7 13 12).mem.wf ∧
    (copyAt7 12 13).AtHeader .mov .memToMem ∧ (copyAt7 12 13).mem.wf ∧
    (copyAt7 12 12).AtHeader .mov .memToMem ∧ (copyAt7 12 12).mem.wf ∧
    ((copyAt7 12 12).wordAt 8).toNat + 4 ≤ 16 ∧ ((copyAt7 12 12).wordAt 12).toNat + 4 ≤ 16 := by
  refine ⟨⟨rfl, ?_, rfl⟩, ?_, ⟨rfl, ?_, rfl⟩, ?_, ⟨rfl, ?_, rfl⟩, ?_, ⟨rfl, ?_, rfl⟩, ?_⟩ <;> decide
theorem witness_StepRunsDecodedInstruction :
    (tiny 14 .one [0x01, 3]).status = .run ∧ (14#32).toNat + 2 ≤ (tiny 14 .one [0x01, 3]).cfg.memSize ∧
    decode ((tiny 14 .one [0x01, 3]).mem.readBytes (14#32).toNat 2) = .ok (.inc .regToReg 3, []) :=
  ⟨rfl, by decide, rfl⟩
theorem witness_StepAgreesWithDecoder :
    (tiny 0 .one []).status = .run ∧
    decode ((tiny 15 .one [0x01]).mem.readBytes 15 1) = .error .truncated ∧
    decode ((tiny 15 .one [0x05]).mem.readBytes 15 1) = .error (.header (.invalidOpcode 5)) ∧
    decode ((tiny 15 .one [0x40]).mem.readBytes 15 1) = .error (.header (.invalidTransferMode 4)) :=
  ⟨rfl, rfl, rfl, rfl⟩
theorem witness_UnknownOpcodeRaises :
    let s := tiny 15 .one [0x45]
    s.status = .run ∧ s.pc.toNat < s.cfg.memSize ∧ 5 ≤ (s.mem.read s.pc.toNat).toNat % 16 ∧
      s.cfg.unknownEnc = .fault := by decide
theorem witness_UnknownSubmodeRaises :
    let s := tiny 15 .one [0x44]
    s.status = .run ∧ s.pc.toNat < s.cfg.memSize ∧ (s.mem.read s.pc.toNat).toNat % 16 ≤ 4 ∧
      4 ≤ (s.mem.read s.pc.toNat).toNat / 16 ∧ s.cfg.unknownEnc = .fault := by decide
theorem witness_HeaderFetchOutsideMemoryRaises :
    (tiny 16 .one []).status = .run ∧ (tiny 16 .one []).cfg.memSize ≤ (tiny 16 .one []).pc.toNat := by decide
theorem witness_TerminalStatesHaveNoStep :
    ({ State.reset with status := .halted }).status = .halted ∧
    ({ State.reset with status := .faulted }).status = .faulted ∧ ∃ t, step State.reset = .next t :=
  ⟨rfl, rfl, _, rfl⟩
theorem witness_RunningMachineAlwaysSteps : State.reset.status = .run := rfl

/-- A state one step before a fault. -/
def aboutToFault : State := tiny 14 .one [0x01, 7]

theorem witness_FaultEntryIsPrecise :
    aboutToFault.cfg.wf ∧ ∃ t, step aboutToFault = .next t ∧ t.status = .faulted :=
  ⟨by decide, _, rfl, rfl⟩
theorem witness_PcAdvanceFollowsTable :
    aboutToFault.cfg.wf ∧ fetch (tiny 10 .one [0x03, 6]) = .instr (.cmp .regToReg 6 0) ∧
    (∃ t, step (tiny 10 .one [0x03, 6]) = .next t ∧ t.status ≠ .faulted) ∧
    ∃ t, step aboutToFault = .next t ∧ t.status = .faulted := ⟨by decide, rfl, ⟨_, rfl, by decide⟩, _, rfl, rfl⟩
theorem witness_InstructionFrame : ∃ t, exec (.movStore 6 12) (tiny 0 .four []) = .next t := ⟨_, rfl⟩

/-- MOV [8] <- R2 at 2, with a byte at 8: the shape of program P3. -/
def storeOverNext (v : Word) (u : UnknownEnc) : State :=
  { State.reset with
    pc := 2
    regs := State.reset.regs.set 2 v
    mem := Memory.writeBytes [] 2 [0x22, 2, 8, 0, 0, 0, 0x01]
    cfg := { memSize := 9, movw := .one, unknownEnc := u } }

/-- The byte the next fetch decodes after the store: an instruction, an opcode and a submode unknown, one too short. -/
theorem witness_StoreIsSeenByNextFetch :
    let s := storeOverNext 0xF5 .fault
    s.mem.wf ∧ s.pc.toNat + 6 ≤ s.cfg.memSize ∧
    decode (s.mem.readBytes s.pc.toNat 6) = .ok (.movStore 2 8, []) ∧
    (∃ t, step s = .next t ∧ t.status = .run ∧ t.pc.toNat = 8) ∧
    decode [s.byteAfter (.movStore 2 8) 8] = .error (.header (.invalidOpcode 5)) ∧
    decode [(storeOverNext 0x40 .spin).byteAfter (.movStore 2 8) 8] = .error (.header (.invalidTransferMode 4)) ∧
    decode [(storeOverNext 0x30 .fault).byteAfter (.movStore 2 8) 8] = .ok (.halt .memToMem, []) ∧
    decode [(storeOverNext 0x01 .fault).byteAfter (.movStore 2 8) 8] = .error .truncated :=
  ⟨by decide, by decide, rfl, ⟨_, rfl, rfl, rfl⟩, rfl, rfl, rfl, rfl⟩
/-- The same with MOV submode 3: [9] <- [8], with a HALT at 8 and an INC after it. -/
theorem witness_StoreIsSeenByNextFetch_movMM :
    let s : State := tiny 0 .one [0x32, 9, 0, 0, 0, 8, 0, 0, 0, 0x01, 3]
    s.mem.wf ∧ s.pc.toNat + 9 ≤ s.cfg.memSize ∧
    decode (s.mem.readBytes s.pc.toNat 9) = .ok (.movMM 9 8, []) ∧
    (∃ t, step s = .next t ∧ t.status = .run ∧ t.pc.toNat = 9) ∧
    decode [s.byteAfter (.movMM 9 8) 9] = .ok (.halt .regToReg, []) :=
  ⟨by decide, by decide, rfl, ⟨_, rfl, rfl, rfl⟩, rfl⟩
theorem witness_FlagRecordsAnyEqualCompare_instruction :
    (∀ sm a, Instr.cmp .regToReg 6 0 ≠ .jmpNe sm a) ∧
    ∃ t, exec (.cmp .regToReg 6 0) State.reset = .next t ∧ t.flag ≠ State.reset.flag :=
  ⟨fun _ _ h => (by cases h), _, rfl, by decide⟩
theorem witness_FlagRecordsAnyEqualCompare :
    ∃ t, runFor 1 (tiny 0 .one [0x03]) = .next t ∧ t.flag = true ∧ FindsEqual (tiny 0 .one [0x03]) :=
  ⟨_, rfl, rfl, rfl, .regToReg, 0, 0, rfl, by decide, rfl⟩
theorem witness_RunEndsInExactlyOneWay :
    State.reset.status = .run ∧ HaltsIn State.reset { State.reset with status := .halted } := ⟨rfl, 1, rfl, rfl⟩
theorem witness_UnknownHeaderFaultsOrSpins :
    let s := { tiny 15 .one [0x05] with cfg := { memSize := 16, movw := .one, unknownEnc := .spin } }
    s.status = .run ∧ s.pc.toNat < s.cfg.memSize ∧
      decodeHeader (s.mem.read s.pc.toNat) = .error (.invalidOpcode 5) ∧ s.cfg.unknownEnc = .spin :=
  ⟨rfl, by decide, rfl, rfl⟩
theorem witness_JumpToItselfRunsForever :
    let s := tiny 11 .one [0x04, 11]
    s.AtHeader .jmpNe .regToReg ∧ s.flag = false ∧ s.pc.toNat + 4 < s.cfg.memSize ∧
      s.wordAt (s.pc.toNat + 1) = s.pc :=
  ⟨⟨rfl, by decide, rfl⟩, rfl, by decide, by decide⟩
theorem witness_EveryStepKeepsInvariant : State.Inv aboutToFault ∧ ∃ t, step aboutToFault = .next t :=
  ⟨⟨by decide, by decide, by decide, by decide, fun _ => rfl, fun h => (by cases h), fun h => (by cases h)⟩, _, rfl⟩
theorem witness_ResetGivesItsValues :
    aboutToFault.mem = (aboutToFault.advance 2).mem ∧ aboutToFault.cfg = (aboutToFault.advance 2).cfg := ⟨rfl, rfl⟩
theorem witness_ResetRestoresInvariant :
    aboutToFault.cfg.wf ∧ aboutToFault.mem.wf ∧ aboutToFault.mem.within aboutToFault.cfg.memSize := by decide
theorem witness_LoadedImageIsInMemory :
    aboutToFault.cfg.wf ∧ aboutToFault.mem.wf ∧ aboutToFault.mem.within aboutToFault.cfg.memSize ∧
    13 + [0x01, 0x00, (0x05 : Byte)].length ≤ aboutToFault.cfg.memSize ∧
    aboutToFault.cfg.memSize < 14 + [0x01, 0x00, (0x05 : Byte)].length := by decide
theorem witness_HostAccessesOnlyOutsideARun :
    aboutToFault.mem.wf ∧ aboutToFault.status = .run ∧ (State.halt aboutToFault).status ≠ .run ∧
    (State.halt aboutToFault).mem.wf ∧ 15 < (State.halt aboutToFault).cfg.memSize ∧
    (State.halt aboutToFault).cfg.memSize ≤ 16 := by decide
theorem witness_PlacedTableWordRuns :
    (tiny 7 .one []).status = .run ∧ (tiny 7 .one []).mem.wf ∧
    (tiny 7 .one []).pc.toNat + maxInstrBytes ≤ (tiny 7 .one []).cfg.memSize ∧
    decodeTableWord 72 0x32 = some (.movMM 0 0) := by decide

end Sys2Proof.Machine.Tests
end

section
/-! PROOFS. Unknown headers (spec/00_scope.md R8): what a fetch and a step make of one, and the endless run of a state
that steps to itself. -/

namespace Sys2Proof.Machine

/-! ### Unknown headers -/

/-- An unknown header in memory is fetched as `UNKNOWN_ENC` selects. -/
theorem fetch_of_unknown_header {s : State} {e : HeaderError} (hpc : s.pc.toNat < s.cfg.memSize)
    (he : decodeHeader (s.mem.read s.pc.toNat) = .error e) :
    fetch s = unknownHeader s.cfg.unknownEnc e := by
  have hread : s.memRead s.pc.toNat 1 = .ok (s.mem.readBytes s.pc.toNat 1) := memRead_ok hpc
  simp [fetch, hread, he]

/-- Under `fault`, a step at an unknown header takes the fault the header names. -/
theorem step_unknown_header_of_fault {s : State} {e : HeaderError} (hrun : s.status = .run)
    (hpc : s.pc.toNat < s.cfg.memSize) (he : decodeHeader (s.mem.read s.pc.toNat) = .error e)
    (hu : s.cfg.unknownEnc = .fault) : step s = .next (s.raise (headerRaise e)) := by
  rw [step_of_run hrun, fetch_of_unknown_header hpc he, hu]
  rfl

/-- Under `spin`, a step at an unknown header changes nothing. -/
theorem step_unknown_header_of_spin {s : State} {e : HeaderError} (hrun : s.status = .run)
    (hpc : s.pc.toNat < s.cfg.memSize) (he : decodeHeader (s.mem.read s.pc.toNat) = .error e)
    (hu : s.cfg.unknownEnc = .spin) : step s = .next s := by
  rw [step_of_run hrun, fetch_of_unknown_header hpc he, hu]
  rfl

/-! ### A state that steps to itself -/

/-- A state that steps to itself is where every run from it stands. -/
theorem runFor_of_step_self {s : State} (h : step s = .next s) (k : Nat) : runFor k s = .next s := by
  induction k with
  | zero => exact runFor_zero s
  | succ k ih => exact (runFor_succ k s s).2 ⟨s, h, ih⟩

/-! ### The statement -/

/-- Settles O43: the step at an unknown header is known for each value of `UNKNOWN_ENC`, and under `spin` it is a step
from the state to itself. -/
theorem unknownHeaderFaultsOrSpins : Obligations.UnknownHeaderFaultsOrSpins := by
  refine ⟨rfl, fun s e hrun hpc he => ⟨fun hu => ?_, fun hu => ?_⟩⟩
  · refine ⟨s.raise (headerRaise e), step_unknown_header_of_fault hrun hpc he hu, raise_status s _, ?_⟩
    cases e with
    | invalidOpcode op => rfl
    | invalidTransferMode sm => rfl
  · exact runFor_of_step_self (step_unknown_header_of_spin hrun hpc he hu)

end Sys2Proof.Machine
end

section
/-! PROOFS. What a completed instruction leaves, said once for all eight, and how far it moves `pc` (spec/10_state.md
R18). -/

namespace Sys2Proof.Machine

/-! ### Completed instructions -/

/-- The instruction completes in `s`, its operands legal and its addresses in memory, and leaves `t` (R56 to R67). -/
def Completes (s t : State) : Instr → Prop
  | .halt _ => t = s.halt
  | .inc _ r => ∃ h : r < 7, t = (s.writeReg ⟨r, h⟩ (s.regs[r] + 1)).advance 2
  | .movRR a b => ∃ (_ : a < 7) (hb : b < 7), t = (s.writeReg ⟨b, hb⟩ s.regs[a]).advance 2
  | .movLoad r a => ∃ h : r < 7, effectiveAddress a + s.cfg.movw.bytes ≤ s.cfg.memSize ∧
      t = (s.writeReg ⟨r, h⟩ (loadedWord (s.mem.readBytes (effectiveAddress a) s.cfg.movw.bytes))).advance 6
  | .movStore r a => ∃ _ : r < 7, effectiveAddress a + s.cfg.movw.bytes ≤ s.cfg.memSize ∧
      t = State.advance { s with
        mem := s.mem.writeBytes (effectiveAddress a) (storedBytes s.cfg.movw s.regs[r]) } 6
  | .movMM d src => effectiveAddress src + s.cfg.movw.bytes ≤ s.cfg.memSize ∧
      effectiveAddress d + s.cfg.movw.bytes ≤ s.cfg.memSize ∧
      t = State.advance { s with
        mem := s.mem.writeBytes (effectiveAddress d)
          (s.mem.readBytes (effectiveAddress src) s.cfg.movw.bytes) } 9
  | .cmp _ r v => ∃ _ : r < 7, t = (s.setFlag (flagAfterCompare s.flag s.regs[r] v)).advance 6
  | .jmpNe _ a => (s.flag = true ∧ t = s.advance 5) ∨
      (s.flag = false ∧ a.toNat < s.cfg.memSize ∧ t = s.jump a)

/-- An instruction completes, or takes a fault in a state where it cannot complete. -/
theorem exec_cases {i : Instr} {s t : State} (h : exec i s = .next t) :
    Completes s t i ∨ ((∃ c, t = s.raise c) ∧ ∀ u, ¬ Completes s u i) := by
  have ends {u : State} (e : exec i s = .next u) : t = u := Host.Outcome.next.inj (h.symm.trans e)
  cases i with
  | halt sm => exact .inl (ends rfl)
  | inc sm r =>
    rcases execInc_cases r s with ⟨hr, e⟩ | ⟨hr, e⟩
    · exact .inl ⟨hr, ends e⟩
    · exact .inr ⟨⟨_, ends e⟩, fun _ ⟨hr', _⟩ => by omega⟩
  | movRR a b =>
    rcases execMovRR_cases a b s with ⟨ha, hb, e⟩ | ⟨ha, e⟩ | ⟨_, hb, e⟩
    · exact .inl ⟨ha, hb, ends e⟩
    · exact .inr ⟨⟨_, ends e⟩, fun _ ⟨ha', _⟩ => by omega⟩
    · exact .inr ⟨⟨_, ends e⟩, fun _ ⟨_, hb', _⟩ => by omega⟩
  | movLoad r a =>
    rcases execMovLoad_cases r a s with ⟨hr, ha, e⟩ | ⟨hr, e⟩ | ⟨_, ha, e⟩
    · exact .inl ⟨hr, ha, ends e⟩
    · exact .inr ⟨⟨_, ends e⟩, fun _ ⟨hr', _⟩ => by omega⟩
    · exact .inr ⟨⟨_, ends e⟩, fun _ ⟨_, ha', _⟩ => by omega⟩
  | movStore r a =>
    rcases execMovStore_cases r a s with ⟨hr, ha, e⟩ | ⟨hr, e⟩ | ⟨_, ha, e⟩
    · exact .inl ⟨hr, ha, ends e⟩
    · exact .inr ⟨⟨_, ends e⟩, fun _ ⟨hr', _⟩ => by omega⟩
    · exact .inr ⟨⟨_, ends e⟩, fun _ ⟨_, ha', _⟩ => by omega⟩
  | movMM d src =>
    rcases execMovMM_cases d src s with ⟨hsrc, hd, e⟩ | ⟨hsrc, e⟩ | ⟨_, hd, e⟩
    · exact .inl ⟨hsrc, hd, ends e⟩
    · exact .inr ⟨⟨_, ends e⟩, fun _ ⟨hsrc', _⟩ => by omega⟩
    · exact .inr ⟨⟨_, ends e⟩, fun _ ⟨_, hd', _⟩ => by omega⟩
  | cmp sm r v =>
    rcases execCmp_cases r v s with ⟨hr, e⟩ | ⟨hr, e⟩
    · exact .inl ⟨hr, ends e⟩
    · exact .inr ⟨⟨_, ends e⟩, fun _ ⟨hr', _⟩ => by omega⟩
  | jmpNe sm a =>
    rcases execJmpNe_cases a s with ⟨hf, e⟩ | ⟨hf, ha, e⟩ | ⟨hf, ha, e⟩
    · exact .inl (.inl ⟨hf, ends e⟩)
    · exact .inl (.inr ⟨hf, ha, ends e⟩)
    · refine .inr ⟨⟨_, ends e⟩, ?_⟩
      rintro _ (⟨hf', _⟩ | ⟨_, ha', _⟩)
      · simp [hf] at hf'
      · omega

/-- A completed instruction leaves the status, or is HALT. -/
theorem status_of_completes {s t : State} {i : Instr} (h : Completes s t i) :
    t.status = s.status ∨ t.status = .halted := by
  cases i with
  | halt sm => obtain rfl := h; exact .inr rfl
  | inc sm r => obtain ⟨_, rfl⟩ := h; exact .inl rfl
  | movRR a b => obtain ⟨_, _, rfl⟩ := h; exact .inl rfl
  | movLoad r a => obtain ⟨_, _, rfl⟩ := h; exact .inl rfl
  | movStore r a => obtain ⟨_, _, rfl⟩ := h; exact .inl rfl
  | movMM d src => obtain ⟨_, _, rfl⟩ := h; exact .inl rfl
  | cmp sm r v => obtain ⟨_, rfl⟩ := h; exact .inl rfl
  | jmpNe sm a => obtain ⟨_, rfl⟩ | ⟨_, _, rfl⟩ := h <;> exact .inl rfl

/-- An instruction run in RUN that ends in FAULTED has taken a fault. -/
theorem raise_of_exec_faulted {i : Instr} {s t : State} (hrun : s.status = .run) (h : exec i s = .next t)
    (ht : t.status = .faulted) : ∃ c, t = s.raise c := by
  rcases exec_cases h with hc | ⟨hc, _⟩
  · rcases status_of_completes hc with hs | hs <;> simp [hs, hrun] at ht
  · exact hc

/-- An instruction that does not end in FAULTED has completed. -/
theorem completes_of_exec {i : Instr} {s t : State} (h : exec i s = .next t) (ht : t.status ≠ .faulted) :
    Completes s t i := by
  rcases exec_cases h with hc | ⟨⟨c, rfl⟩, _⟩
  · exact hc
  · exact absurd (raise_status s c) ht

/-! ### The program counter -/

/-- The header determines the length of its instruction (R42). -/
theorem length_instr (hd : Header) (ops : List Byte) : (hd.instr ops).length = 1 + hd.operandBytes := by
  obtain ⟨op, sm⟩ := hd
  cases op with
  | mov => cases sm <;> rfl
  | halt => rfl
  | inc => rfl
  | cmp => rfl
  | jmpNe => rfl

/-- A fetched instruction lies in memory. -/
theorem fetched_in_memory {s : State} {i : Instr} (h : fetch s = .instr i) :
    s.pc.toNat + i.length ≤ s.cfg.memSize := by
  rcases fetch_cases s with ⟨_, e⟩ | ⟨_, e, _, e'⟩ | ⟨_, _, _, _, e⟩ | ⟨hd, _, hm, e⟩
  · cases h.symm.trans e
  · have hu := h.symm.trans e'
    cases hc : s.cfg.unknownEnc <;> rw [hc] at hu <;> cases hu
  · cases h.symm.trans e
  · cases h.symm.trans e
    rw [length_instr]
    omega

/-- Where the bytes passed lie in memory the sum does not wrap (R18). -/
theorem toNat_pc_add {s : State} {n : Nat} (hwf : s.cfg.wf) (hn : s.pc.toNat + n ≤ s.cfg.memSize) :
    (s.pc + BitVec.ofNat 32 n).toNat = s.pc.toNat + n := by
  obtain ⟨_, hsize⟩ := hwf
  rw [BitVec.toNat_add, BitVec.toNat_ofNat, Nat.add_mod_mod]
  exact Nat.mod_eq_of_lt (by omega)

/-- The next `pc` as an unbounded number, and its bound. -/
theorem toNat_pc_of_advance {s t : State} {n : Nat} (hwf : s.cfg.wf) (hn : s.pc.toNat + n ≤ s.cfg.memSize)
    (ht : t.pc = s.pc + BitVec.ofNat 32 n) : t.pc.toNat = s.pc.toNat + n ∧ t.pc.toNat ≤ s.cfg.memSize := by
  rw [ht, toNat_pc_add hwf hn]
  exact ⟨rfl, hn⟩

/-- A step that ends in FAULTED leaves `pc`. -/
theorem pc_of_step_faulted {s t : State} (h : step s = .next t) (ht : t.status = .faulted) : t.pc = s.pc := by
  obtain ⟨hrun, ⟨i, _, he⟩ | ⟨c, _, rfl⟩ | ⟨_, rfl⟩⟩ := step_cases h
  · obtain ⟨c, rfl⟩ := raise_of_exec_faulted hrun he ht
    exact raise_pc s c
  · exact raise_pc s c
  · rfl

/-- A step that fetches an instruction and does not end in FAULTED completes it. -/
theorem completes_of_step {s t : State} {i : Instr} (h : step s = .next t) (hf : fetch s = .instr i)
    (ht : t.status ≠ .faulted) : Completes s t i := by
  obtain ⟨hrun, _⟩ := step_cases h
  rw [step_of_run hrun, hf] at h
  exact completes_of_exec h ht

/-- Settles O38: a fault leaves `pc`; what completes moves it as its form says, and the instruction it passes lies in
memory, so no sum wraps. -/
theorem pcAdvanceFollowsTable : Obligations.PcAdvanceFollowsTable := by
  intro s t hwf h
  refine ⟨pc_of_step_faulted h, fun i hf ht => ?_⟩
  have hc := completes_of_step h hf ht
  have hm := fetched_in_memory hf
  cases i with
  | halt sm => obtain rfl := hc; exact ⟨rfl, rfl⟩
  | inc sm r => obtain ⟨_, rfl⟩ := hc; exact toNat_pc_of_advance hwf hm rfl
  | movRR a b => obtain ⟨_, _, rfl⟩ := hc; exact toNat_pc_of_advance hwf hm rfl
  | movLoad r a => obtain ⟨_, _, rfl⟩ := hc; exact toNat_pc_of_advance hwf hm rfl
  | movStore r a => obtain ⟨_, _, rfl⟩ := hc; exact toNat_pc_of_advance hwf hm rfl
  | movMM d src => obtain ⟨_, _, rfl⟩ := hc; exact toNat_pc_of_advance hwf hm rfl
  | cmp sm r v => obtain ⟨_, rfl⟩ := hc; exact toNat_pc_of_advance hwf hm rfl
  | jmpNe sm a =>
    obtain ⟨hflag, rfl⟩ | ⟨hflag, ha, rfl⟩ := hc
    · simp only [hflag, if_true]
      exact toNat_pc_of_advance hwf hm rfl
    · simp only [hflag, Bool.false_eq_true, if_false]
      exact ⟨rfl, ha⟩

end Sys2Proof.Machine
end

section
/-! PROOFS. The comparison flag (spec/10_state.md R19): who writes it, who reads it, and what it records of a run. -/

namespace Sys2Proof.Machine

/-! ### Who writes the flag -/

/-- CMP with a legal register that equals its immediate. -/
def ComparesEqual (s : State) (i : Instr) : Prop :=
  ∃ sm r v, i = .cmp sm r v ∧ ∃ h : r < 7, s.regs[r] = v

theorem comparesEqual_cmp (s : State) (sm : Submode) (r : Nat) (v : Word) :
    ComparesEqual s (.cmp sm r v) ↔ ∃ h : r < 7, s.regs[r] = v := by
  constructor
  · rintro ⟨_, _, _, hi, heq⟩
    cases hi
    exact heq
  · exact fun heq => ⟨sm, r, v, rfl, heq⟩

/-- After a compare the flag is set exactly when it was set or the two words are equal. -/
theorem flagAfterCompare_eq_true_iff (flag : Bool) (x v : Word) :
    flagAfterCompare flag x v = true ↔ flag = true ∨ x = v := by
  by_cases h : x = v <;> simp [flagAfterCompare, h]

/-- Only CMP writes the flag. -/
theorem flag_of_completes {s t : State} {i : Instr} (h : Completes s t i) (hi : i.writesFlag = false) :
    t.flag = s.flag := by
  cases i with
  | halt sm => obtain rfl := h; rfl
  | inc sm r => obtain ⟨_, rfl⟩ := h; rfl
  | movRR a b => obtain ⟨_, _, rfl⟩ := h; rfl
  | movLoad r a => obtain ⟨_, _, rfl⟩ := h; rfl
  | movStore r a => obtain ⟨_, _, rfl⟩ := h; rfl
  | movMM d src => obtain ⟨_, _, rfl⟩ := h; rfl
  | cmp sm r v => cases hi
  | jmpNe sm a => obtain ⟨_, rfl⟩ | ⟨_, _, rfl⟩ := h <;> rfl

/-- An instruction that does not write the flag leaves it, also where it faults. -/
theorem flag_of_exec {i : Instr} {s t : State} (h : exec i s = .next t) (hi : i.writesFlag = false) :
    t.flag = s.flag := by
  rcases exec_cases h with hc | ⟨⟨c, rfl⟩, _⟩
  · exact flag_of_completes hc hi
  · exact raise_flag s c

/-- The instructions that write the flag are the CMPs. -/
theorem writesFlag_iff (i : Instr) : i.writesFlag = true ↔ ∃ sm r v, i = .cmp sm r v := by
  cases i <;> simp [Instr.writesFlag]

/-- An instruction leaves the flag set exactly when it found it set or is a CMP that finds its operands equal. -/
theorem exec_flag_iff {i : Instr} {s t : State} (h : exec i s = .next t) :
    t.flag = true ↔ s.flag = true ∨ ComparesEqual s i := by
  cases hi : i.writesFlag with
  | false =>
    have hne : ¬ ComparesEqual s i := by
      rintro ⟨sm, r, v, rfl, _⟩
      cases hi
    simp [flag_of_exec h hi, hne]
  | true =>
    obtain ⟨sm, r, v, rfl⟩ := (writesFlag_iff i).1 hi
    rcases exec_cases h with ⟨hr, rfl⟩ | ⟨⟨c, rfl⟩, hne⟩
    · simp [comparesEqual_cmp, flagAfterCompare_eq_true_iff, hr]
    · have hr : ¬ r < 7 := fun hr => hne _ ⟨hr, rfl⟩
      simp [comparesEqual_cmp, hr]

/-- An instruction that changes the flag sets it, and is a CMP. -/
theorem flag_change_of_exec {i : Instr} {s t : State} (h : exec i s = .next t) (hne : t.flag ≠ s.flag) :
    t.flag = true ∧ ∃ sm r v, i = .cmp sm r v := by
  cases hi : i.writesFlag with
  | false => exact absurd (flag_of_exec h hi) hne
  | true =>
    refine ⟨?_, (writesFlag_iff i).1 hi⟩
    cases ht : t.flag with
    | true => rfl
    | false =>
      have hs : s.flag = true := by simpa [ht] using hne
      exact absurd ((exec_flag_iff h).2 (.inl hs)) (by simp [ht])

/-! ### Who reads the flag -/

/-- A store commutes with a change of the flag. -/
theorem memWrite_setFlag (s : State) (b : Bool) (addr : Nat) (bs : List Byte) :
    (s.setFlag b).memWrite addr bs = (·.setFlag b) <$> s.memWrite addr bs := by
  unfold State.memWrite
  rw [setFlag_cfg]
  cases firstOutside s.cfg.memSize addr bs.length <;> rfl

/-- Ending an instruction, in its state or in a fault, commutes with a change of the flag. -/
theorem finish_setFlag {s t : State} {r r' : Except Raise State} {b : Bool} (h : finish s r = .next t)
    (hr : r' = (·.setFlag b) <$> r) : finish (s.setFlag b) r' = .next (t.setFlag b) := by
  subst hr
  cases r with
  | ok u => cases h; rfl
  | error c => cases h; rfl

/-- An instruction that neither reads nor writes the flag commutes with a change of it: each operation it is made of
does. -/
theorem exec_setFlag {i : Instr} {s t : State} (b : Bool) (hw : i.writesFlag = false)
    (hr : ∀ sm a, i ≠ .jmpNe sm a) (h : exec i s = .next t) : exec i (s.setFlag b) = .next (t.setFlag b) := by
  cases i with
  | halt sm => cases h; rfl
  | inc sm r =>
    refine finish_setFlag h ?_
    simp only [map_bind]
    rfl
  | movRR x y =>
    refine finish_setFlag h ?_
    simp only [map_bind]
    rfl
  | movLoad r a =>
    refine finish_setFlag h ?_
    simp only [map_bind]
    rfl
  | movStore r a =>
    refine finish_setFlag h ?_
    simp only [map_bind, memWrite_setFlag, bind_map_left]
    rfl
  | movMM d src =>
    refine finish_setFlag h ?_
    simp only [map_bind, memWrite_setFlag, bind_map_left]
    rfl
  | cmp sm r v => cases hw
  | jmpNe sm a => exact absurd rfl (hr sm a)

/-- CMP does the same to everything but the flag whatever the flag holds. -/
theorem exec_cmp_setFlag {sm : Submode} {r : Nat} {v : Word} {s t : State} (b : Bool)
    (h : exec (.cmp sm r v) s = .next t) :
    ∃ f, exec (.cmp sm r v) (s.setFlag b) = .next (t.setFlag f) := by
  rcases execCmp_cases r v s with ⟨hr, e⟩ | ⟨hr, e⟩
  · cases h.symm.trans e
    obtain ⟨_, e'⟩ := (execCmp_cases r v (s.setFlag b)).resolve_right (by omega)
    exact ⟨_, e'⟩
  · cases h.symm.trans e
    obtain ⟨_, e'⟩ := (execCmp_cases r v (s.setFlag b)).resolve_left (by rintro ⟨hr', _⟩; omega)
    exact ⟨b, e'⟩

/-- Every instruction but JMP_NE does the same to everything but the flag whatever the flag holds. -/
theorem exec_ignores_flag {i : Instr} {s t : State} (b : Bool) (hr : ∀ sm a, i ≠ .jmpNe sm a)
    (h : exec i s = .next t) : ∃ f, exec i (s.setFlag b) = .next (t.setFlag f) := by
  cases hw : i.writesFlag with
  | false => exact ⟨b, exec_setFlag b hw hr h⟩
  | true =>
    obtain ⟨sm, r, v, rfl⟩ := (writesFlag_iff i).1 hw
    exact exec_cmp_setFlag b h

/-! ### What the flag records of a run -/

/-- In RUN, a state finds a compare equal exactly when it fetches an instruction that does. -/
theorem findsEqual_iff {s : State} (hrun : s.status = .run) :
    FindsEqual s ↔ ∃ i, fetch s = .instr i ∧ ComparesEqual s i := by
  constructor
  · rintro ⟨_, sm, r, v, hf, heq⟩
    exact ⟨_, hf, sm, r, v, rfl, heq⟩
  · rintro ⟨_, hf, sm, r, v, rfl, heq⟩
    exact ⟨hrun, sm, r, v, hf, heq⟩

/-- A step leaves the flag set exactly when it found it set or is a compare that finds equality. -/
theorem step_flag_iff {s t : State} (h : step s = .next t) :
    t.flag = true ↔ s.flag = true ∨ FindsEqual s := by
  obtain ⟨hrun, ⟨i, hf, he⟩ | ⟨c, hf, rfl⟩ | ⟨hf, rfl⟩⟩ := step_cases h
  · simp [findsEqual_iff hrun, hf, exec_flag_iff he]
  · simp [findsEqual_iff hrun, hf]
  · simp [findsEqual_iff hrun, hf]

/-- After `k` steps the flag is set exactly when it was set at the start or a step on the way found equality. -/
theorem runFor_flag_iff (k : Nat) (s t : State) (h : runFor k s = .next t) :
    t.flag = true ↔ s.flag = true ∨ ∃ j u, j < k ∧ runFor j s = .next u ∧ FindsEqual u := by
  induction k generalizing t with
  | zero =>
    cases h
    simp
  | succ k ih =>
    obtain ⟨u, hu, hstep⟩ := (runFor_snoc k s t).1 h
    have hlast : FindsEqual u ↔ ∃ v, runFor k s = .next v ∧ FindsEqual v := by simp [hu]
    rw [step_flag_iff hstep, ih u hu, hlast, or_assoc]
    simp only [exists_and_left, Nat.exists_lt_succ_right]

/-- Settles O41: the history clause is an induction over the steps, the last step's compare being the new one. -/
theorem flagRecordsAnyEqualCompare : Obligations.FlagRecordsAnyEqualCompare :=
  ⟨rfl, fun _ _ _ => flag_change_of_exec, fun _ _ _ b => exec_ignores_flag b, runFor_flag_iff⟩

end Sys2Proof.Machine
end

section
/-! PROOFS. Reset (spec/70_reset_and_hazards.md R81): the values of spec/10_state.md R25 in any state. -/

namespace Sys2Proof.Machine

@[simp] theorem applyReset_fault (s : State) : s.applyReset.fault = clearRecord := rfl

theorem getElem_applyReset_regs (s : State) (i : Nat) (hi : i < 7) : s.applyReset.regs[i] = 0 := by
  simp

/-- Nothing but memory and the parameters survives a reset. -/
theorem applyReset_congr {s t : State} (hm : s.mem = t.mem) (hc : s.cfg = t.cfg) : s.applyReset = t.applyReset := by
  unfold State.applyReset
  rw [hm, hc]

/-- Settles O47: reset writes every field but memory and the parameters, each with a constant. -/
theorem resetGivesItsValues : Obligations.ResetGivesItsValues := by
  refine ⟨fun s => ?_, fun _ _ => applyReset_congr, rfl⟩
  exact ⟨applyReset_pc s, getElem_applyReset_regs s, applyReset_flag s, applyReset_status s, applyReset_fault s,
    applyReset_mem s, applyReset_cfg s⟩

end Sys2Proof.Machine
end

section
/-! PROOFS. Reads and writes of memory (spec/20_memory.md R28, R29): the bytes in range, the fault out of range. -/

namespace Sys2Proof.Machine

/-! ### Bytes and words -/

theorem readBytes_one (m : Memory) (a : Nat) : m.readBytes a 1 = [m.read a] := rfl

theorem readBytes_four (m : Memory) (a : Nat) :
    m.readBytes a 4 = [m.read a, m.read (a + 1), m.read (a + 2), m.read (a + 3)] := rfl

/-- The two spellings of R10, Horner's and the sum of weighted bytes, give one number. -/
theorem loadedWord_four (b0 b1 b2 b3 : Byte) : loadedWord [b0, b1, b2, b3] = le32 b0 b1 b2 b3 := by
  have hvalue : leValue [b0, b1, b2, b3] =
      b0.toNat + 256 * b1.toNat + 65536 * b2.toNat + 16777216 * b3.toNat := by
    simp only [leValue]
    omega
  rw [loadedWord, hvalue, le32]

theorem loadedWord_readBytes_four (s : State) (a : Nat) : loadedWord (s.mem.readBytes a 4) = s.wordAt a :=
  loadedWord_four _ _ _ _

theorem getElem_leBytes (n : Nat) (v : Word) (i : Nat) (h : i < (leBytes n v).length) :
    (leBytes n v)[i] = v.extractLsb' (8 * i) 8 := by
  simp [leBytes, leByte]

/-! ### Writes in range -/

/-- A write of the low `n` bytes of a value, in range, sets those bytes and no other. -/
theorem read_writeBytes_leBytes {m : Memory} (hm : m.wf) (addr n i : Nat) (v : Word) (hi : i < n) :
    (m.writeBytes addr (leBytes n v)).read (addr + i) = v.extractLsb' (8 * i) 8 := by
  have hlen : i < (leBytes n v).length := by rwa [leBytes_length]
  rw [read_writeBytes_inside hm addr i _ hlen, getElem_leBytes]

/-! ### Reads and writes out of range -/

/-- A read of at least one byte that does not end in memory faults at the lowest address outside. -/
theorem memRead_error {s : State} {addr n : Nat} (hn : 0 < n) (h : s.cfg.memSize < addr + n) :
    s.memRead addr n = .error (addressRaise (max addr s.cfg.memSize)) := by
  rcases memRead_cases s addr n with ⟨_, hfit⟩ | ⟨e, _⟩
  · omega
  · exact e

/-- A write of at least one byte that does not end in memory faults likewise and leaves no state to have written in. -/
theorem memWrite_error {s : State} {addr : Nat} {bs : List Byte} (hbs : bs ≠ [])
    (h : s.cfg.memSize < addr + bs.length) :
    s.memWrite addr bs = .error (addressRaise (max addr s.cfg.memSize)) := by
  rcases memWrite_cases s addr bs with ⟨_, hnil | hfit⟩ | ⟨e, _⟩
  · exact absurd hnil hbs
  · omega
  · exact e

/-! ### The statements -/

/-- Settles O7: in range the bytes read are those of `Memory.readBytes`, out of range the first address outside is
raised. -/
theorem memReadFollowsRule : Obligations.MemReadFollowsRule := by
  intro s addr n hn
  refine ⟨fun hfit => ⟨s.mem.readBytes addr n, memRead_ok hfit, ?_, ?_⟩, memRead_error (by omega)⟩
  · rintro rfl
    exact readBytes_one s.mem addr
  · rintro rfl
    exact ⟨readBytes_four s.mem addr, loadedWord_readBytes_four s addr⟩

/-- Settles O8: in range the state is rewritten in its memory alone, by `Memory.writeBytes`; out of range the first
address outside is raised. -/
theorem memWriteFollowsRule : Obligations.MemWriteFollowsRule := by
  intro s addr n v hm hn
  have hlen : (leBytes n v).length = n := leBytes_length n v
  refine ⟨fun hfit => ?_, fun hout => ?_⟩
  · refine ⟨{ s with mem := s.mem.writeBytes addr (leBytes n v) }, memWrite_ok (by rwa [hlen]), rfl,
      ⟨rfl, rfl, rfl, rfl, rfl⟩, fun i hi => read_writeBytes_leBytes hm addr n i v hi, fun k hk => ?_⟩
    exact read_writeBytes_outside s.mem addr k _ (by rwa [hlen])
  · have hne : leBytes n v ≠ [] := List.ne_nil_of_length_pos (by omega)
    exact memWrite_error hne (by rwa [hlen])

end Sys2Proof.Machine
end

section
/-! PROOFS. The header byte (spec/30_encoding.md R42 to R49, R53): its two nibbles, what the decoder makes of each of the
256 values, and the length it gives an instruction. -/

namespace Sys2Proof

/-! ### The two nibbles of a byte -/

@[simp] theorem toNat_loNibble (h : Byte) : (loNibble h).toNat = h.toNat % 16 := by
  simp [loNibble]

@[simp] theorem toNat_hiNibble (h : Byte) : (hiNibble h).toNat = h.toNat / 16 := by
  have hlt : h.toNat < 256 := h.isLt
  rw [hiNibble, BitVec.extractLsb'_toNat, Nat.shiftRight_eq_div_pow]
  omega

theorem loNibble_eq_ofNat (h : Byte) : loNibble h = BitVec.ofNat 4 (h.toNat % 16) := by
  rw [← toNat_loNibble, BitVec.ofNat_toNat, BitVec.setWidth_eq]

theorem hiNibble_eq_ofNat (h : Byte) : hiNibble h = BitVec.ofNat 4 (h.toNat / 16) := by
  rw [← toNat_hiNibble, BitVec.ofNat_toNat, BitVec.setWidth_eq]

@[simp] theorem toNat_joinNibbles (hi lo : BitVec 4) : (joinNibbles hi lo).toNat = lo.toNat + 16 * hi.toNat := by
  rw [joinNibbles, BitVec.toNat_ofNat]
  exact Nat.mod_eq_of_lt (by omega)

@[simp] theorem loNibble_joinNibbles (hi lo : BitVec 4) : loNibble (joinNibbles hi lo) = lo := by
  apply BitVec.eq_of_toNat_eq
  rw [toNat_loNibble, toNat_joinNibbles]
  omega

@[simp] theorem hiNibble_joinNibbles (hi lo : BitVec 4) : hiNibble (joinNibbles hi lo) = hi := by
  apply BitVec.eq_of_toNat_eq
  rw [toNat_hiNibble, toNat_joinNibbles]
  omega

@[simp] theorem joinNibbles_nibbles (h : Byte) : joinNibbles (hiNibble h) (loNibble h) = h := by
  apply BitVec.eq_of_toNat_eq
  rw [toNat_joinNibbles, toNat_loNibble, toNat_hiNibble]
  omega

/-- A byte is its two nibbles. -/
theorem eq_joinNibbles_iff (h : Byte) (hi lo : BitVec 4) :
    h = joinNibbles hi lo ↔ hiNibble h = hi ∧ loNibble h = lo := by
  constructor
  · rintro rfl
    simp
  · rintro ⟨rfl, rfl⟩
    exact (joinNibbles_nibbles h).symm

theorem hiNibble_and (h k : Byte) : hiNibble (h &&& k) = hiNibble h &&& hiNibble k := BitVec.extractLsb'_and

theorem loNibble_and (h k : Byte) : loNibble (h &&& k) = loNibble h &&& loNibble k := BitVec.extractLsb'_and

/-! ### The tables of opcodes and submodes -/

theorem Opcode.ofNibble_eq_some_iff {n : BitVec 4} {op : Opcode} : Opcode.ofNibble n = some op ↔ n = op.code := by
  revert n
  cases op <;> decide

theorem Opcode.ofNibble_eq_none_iff {n : BitVec 4} : Opcode.ofNibble n = none ↔ 5 ≤ n.toNat := by
  revert n
  decide

theorem Submode.ofNibble_eq_some_iff {n : BitVec 4} {sm : Submode} : Submode.ofNibble n = some sm ↔ n = sm.code := by
  revert n
  cases sm <;> decide

theorem Submode.ofNibble_eq_none_iff {n : BitVec 4} : Submode.ofNibble n = none ↔ 4 ≤ n.toNat := by
  revert n
  decide

theorem Opcode.code_lt (op : Opcode) : op.code.toNat < 5 := by
  cases op <;> decide

theorem Submode.code_lt (sm : Submode) : sm.code.toNat < 4 := by
  cases sm <;> decide

/-- A nibble numbers a submode exactly when its two high bits are clear. -/
theorem exists_submode_code_iff (n : BitVec 4) : (∃ sm : Submode, n = sm.code) ↔ n &&& 0xC = 0 := by
  have hmask : n &&& 0xC = 0 ↔ Submode.ofNibble n ≠ none := by
    revert n
    decide
  rw [hmask, Option.ne_none_iff_exists']
  simp only [Submode.ofNibble_eq_some_iff]

/-! ### Encoding and decoding a header -/

theorem toNat_encodeHeader (op : Opcode) (sm : Submode) :
    (encodeHeader op sm).toNat = op.code.toNat + 16 * sm.code.toNat :=
  toNat_joinNibbles sm.code op.code

@[simp] theorem loNibble_encodeHeader (op : Opcode) (sm : Submode) : loNibble (encodeHeader op sm) = op.code :=
  loNibble_joinNibbles sm.code op.code

@[simp] theorem hiNibble_encodeHeader (op : Opcode) (sm : Submode) : hiNibble (encodeHeader op sm) = sm.code :=
  hiNibble_joinNibbles sm.code op.code

@[simp] theorem decodeHeader_encodeHeader (op : Opcode) (sm : Submode) :
    decodeHeader (encodeHeader op sm) = .ok ⟨op, sm⟩ := by
  have hop : Opcode.ofNibble op.code = some op := Opcode.ofNibble_eq_some_iff.2 rfl
  have hsm : Submode.ofNibble sm.code = some sm := Submode.ofNibble_eq_some_iff.2 rfl
  simp [decodeHeader, hop, hsm]

/-- What the decoder makes of a header byte: an unknown opcode, else an unknown submode, else a known pair, whose
encoding the byte is. -/
theorem decodeHeader_cases (h : Byte) :
    (5 ≤ h.toNat % 16 ∧ decodeHeader h = .error (.invalidOpcode (loNibble h))) ∨
    (h.toNat % 16 < 5 ∧ 4 ≤ h.toNat / 16 ∧ decodeHeader h = .error (.invalidTransferMode (hiNibble h))) ∨
    (h.toNat % 16 < 5 ∧ h.toNat / 16 < 4 ∧ ∃ op sm, h = encodeHeader op sm) := by
  cases hop : Opcode.ofNibble (loNibble h) with
  | none =>
    have hlo := Opcode.ofNibble_eq_none_iff.1 hop
    rw [toNat_loNibble] at hlo
    exact .inl ⟨hlo, by simp [decodeHeader, hop]⟩
  | some op =>
    have hlo := Opcode.ofNibble_eq_some_iff.1 hop
    have hop_lt := op.code_lt
    rw [← hlo, toNat_loNibble] at hop_lt
    cases hsm : Submode.ofNibble (hiNibble h) with
    | none =>
      have hhi := Submode.ofNibble_eq_none_iff.1 hsm
      rw [toNat_hiNibble] at hhi
      exact .inr (.inl ⟨hop_lt, hhi, by simp [decodeHeader, hop, hsm]⟩)
    | some sm =>
      have hhi := Submode.ofNibble_eq_some_iff.1 hsm
      have hsm_lt := sm.code_lt
      rw [← hhi, toNat_hiNibble] at hsm_lt
      exact .inr (.inr ⟨hop_lt, hsm_lt, op, sm, (eq_joinNibbles_iff h _ _).2 ⟨hhi, hlo⟩⟩)

/-- The bytes that decode to a pair are its encoding alone. -/
theorem decodeHeader_eq_ok_iff {h : Byte} {op : Opcode} {sm : Submode} :
    decodeHeader h = .ok ⟨op, sm⟩ ↔ h = encodeHeader op sm := by
  constructor
  · intro hok
    rcases decodeHeader_cases h with ⟨_, e⟩ | ⟨_, _, e⟩ | ⟨_, _, op', sm', rfl⟩
    · cases hok.symm.trans e
    · cases hok.symm.trans e
    · cases hok.symm.trans (decodeHeader_encodeHeader op' sm')
      rfl
  · rintro rfl
    exact decodeHeader_encodeHeader op sm

/-- Settles O3: the nibbles of the encoded byte are the numbers of the pair, and each table inverts its numbering. -/
theorem headerEncodeDecodeInverse : Obligations.HeaderEncodeDecodeInverse :=
  fun op sm => ⟨decodeHeader_encodeHeader op sm, toNat_encodeHeader op sm⟩

/-! ### The rows of the opcode table -/

/-- The match and mask of a form that ignores its submode: the mask leaves the opcode nibble and the two high bits of the
submode nibble. -/
theorem masked_eq_iff_decodeHeader (h : Byte) (op : Opcode) :
    h &&& 0xCF = encodeHeader op .regToReg ↔ ∃ sm, sm.code.toNat = h.toNat / 16 ∧ decodeHeader h = .ok ⟨op, sm⟩ := by
  have hhi : hiNibble (h &&& 0xCF) = 0 ↔ ∃ sm : Submode, hiNibble h = sm.code := by
    rw [hiNibble_and, exists_submode_code_iff]
    rfl
  have hlo : loNibble (h &&& 0xCF) = loNibble h := by
    rw [loNibble_and]
    exact BitVec.and_allOnes
  have hsm (sm : Submode) : sm.code.toNat = h.toNat / 16 ↔ hiNibble h = sm.code := by
    rw [← toNat_hiNibble, BitVec.toNat_inj, eq_comm]
  calc h &&& 0xCF = encodeHeader op .regToReg
      ↔ (∃ sm : Submode, hiNibble h = sm.code) ∧ loNibble h = op.code := by
        rw [encodeHeader, eq_joinNibbles_iff, hlo, ← hhi]
        rfl
    _ ↔ ∃ sm, sm.code.toNat = h.toNat / 16 ∧ decodeHeader h = .ok ⟨op, sm⟩ := by
        simp only [hsm, decodeHeader_eq_ok_iff, encodeHeader, eq_joinNibbles_iff, exists_and_right, and_self_left]

/-- The match and mask of a MOV form: the mask leaves the whole byte. -/
theorem eq_encodeHeader_iff_decodeHeader (h : Byte) (op : Opcode) (sm : Submode) :
    h &&& 0xFF = encodeHeader op sm ↔ decodeHeader h = .ok ⟨op, sm⟩ := by
  have hall : h &&& 0xFF = h := BitVec.and_allOnes
  rw [hall, decodeHeader_eq_ok_iff]

/-- A count over the first bytes goes by their high nibbles, 16 bytes to each. -/
theorem countP_range_mul_sixteen (p : Nat → Bool) (k : Nat) :
    (List.range (16 * k)).countP p =
      ((List.range k).map fun r => (List.range 16).countP fun c => p (16 * r + c)).sum := by
  induction k with
  | zero => rfl
  | succ k ih =>
    rw [Nat.mul_succ, List.range_add, List.countP_append, List.countP_map, ih, List.range_succ (n := k), List.map_append,
      List.sum_append]
    simp [Function.comp_def]

/-- Settles O2: the two errors are cases of the decoder, a row's match and mask holds of its encodings alone, and the
counts go by the high nibble. -/
theorem headerMapIsTotal : Obligations.HeaderMapIsTotal := by
  refine ⟨fun h => ⟨fun hlo => ?_, fun hlo hhi => ?_, masked_eq_iff_decodeHeader h .halt,
    masked_eq_iff_decodeHeader h .inc, masked_eq_iff_decodeHeader h .cmp, masked_eq_iff_decodeHeader h .jmpNe,
    eq_encodeHeader_iff_decodeHeader h .mov .regToReg, eq_encodeHeader_iff_decodeHeader h .mov .memToReg,
    eq_encodeHeader_iff_decodeHeader h .mov .regToMem, eq_encodeHeader_iff_decodeHeader h .mov .memToMem⟩, ?_, ?_⟩
  · rw [← loNibble_eq_ofNat]
    rcases decodeHeader_cases h with ⟨_, e⟩ | ⟨hlt, _⟩ | ⟨hlt, _⟩
    · exact e
    · omega
    · omega
  · rw [← hiNibble_eq_ofNat]
    rcases decodeHeader_cases h with ⟨hge, _⟩ | ⟨_, _, e⟩ | ⟨_, hlt, _⟩
    · omega
    · exact e
    · omega
  · exact (countP_range_mul_sixteen _ 16).trans (by decide)
  · exact (countP_range_mul_sixteen _ 16).trans (by decide)

/-! ### The length -/

/-- The bytes that decode begin with a known header and hold its operands (R42). -/
theorem decode_cons_eq_ok_iff {h : Byte} {ops : List Byte} {i : Instr} {rest : List Byte} :
    decode (h :: ops) = .ok (i, rest) ↔
      ∃ hd, decodeHeader h = .ok hd ∧ hd.operandBytes ≤ ops.length ∧ i = hd.instr ops ∧
        rest = ops.drop hd.operandBytes := by
  cases hh : decodeHeader h with
  | error e => simp [decode, hh]
  | ok hd =>
    by_cases hlen : ops.length < hd.operandBytes
    · simp [decode, hh, hlen]
    · simp [decode, hh, hlen, eq_comm, Nat.not_lt.1 hlen]

/-- Settles O6: what decodes takes the header and its operand bytes, and their number is read off the header's two
nibbles. -/
theorem lengthFollowsFromHeaderAlone : Obligations.LengthFollowsFromHeaderAlone := by
  intro h ops i rest hdec
  obtain ⟨⟨op, sm⟩, hhd, hlen, -, rfl⟩ := decode_cons_eq_ok_iff.1 hdec
  obtain rfl := decodeHeader_eq_ok_iff.1 hhd
  have htaken : (encodeHeader op sm :: ops).length =
      (ops.drop (Header.operandBytes ⟨op, sm⟩)).length + (1 + Header.operandBytes ⟨op, sm⟩) := by
    rw [List.length_cons, List.length_drop]
    omega
  rw [htaken, Nat.add_left_cancel_iff, ← toNat_loNibble, ← toNat_hiNibble, loNibble_encodeHeader,
    hiNibble_encodeHeader]
  cases op with
  | mov => cases sm <;> rfl
  | halt => rfl
  | inc => rfl
  | cmp => rfl
  | jmpNe => rfl

end Sys2Proof
end

section
/-! PROOFS. The sequencer (spec/40_sequencer_halt.md R54 to R56): the step at a known header, that a running machine
always has a next state, and the three ways a run can end. -/

namespace Sys2Proof.Machine

/-! ### A step at a known header -/

/-- A known header whose operands lie in memory is fetched as its instruction. -/
theorem fetch_of_atHeader {s : State} {op : Opcode} {sm : Submode} (h : s.AtHeader op sm)
    (hops : s.pc.toNat + 1 + Header.operandBytes ⟨op, sm⟩ ≤ s.cfg.memSize) :
    fetch s = .instr (Header.instr (s.mem.readBytes (s.pc.toNat + 1) (Header.operandBytes ⟨op, sm⟩)) ⟨op, sm⟩) := by
  obtain ⟨_, hpc, hheader⟩ := h
  have hread : s.memRead s.pc.toNat 1 = .ok (s.mem.readBytes s.pc.toNat 1) := memRead_ok hpc
  simp [fetch, hread, hheader, memRead_ok hops]

/-- A step at such a header executes its instruction. -/
theorem step_of_atHeader {s : State} {op : Opcode} {sm : Submode} (h : s.AtHeader op sm)
    (hops : s.pc.toNat + 1 + Header.operandBytes ⟨op, sm⟩ ≤ s.cfg.memSize) :
    step s = exec (Header.instr (s.mem.readBytes (s.pc.toNat + 1) (Header.operandBytes ⟨op, sm⟩)) ⟨op, sm⟩) s := by
  have ⟨hrun, _⟩ := h
  rw [step_of_run hrun, fetch_of_atHeader h hops]

/-- Settles O22: a HALT has no operand bytes, so its header in memory is all its fetch needs. -/
theorem haltHeaderEndsTheRun : Obligations.HaltHeaderEndsTheRun := by
  intro s sm h
  have ⟨_, hpc, _⟩ := h
  exact ⟨s.halt, step_of_atHeader h hpc, rfl, rfl⟩

/-! ### A running machine has a next state -/

/-- Every instruction answers a next state, its own or that of its fault. -/
theorem exists_exec_next (i : Instr) (s : State) : ∃ t, exec i s = .next t := by
  have ends (r : Except Raise State) : ∃ t, finish s r = .next t := by
    rcases finish_next s r with ⟨t, _, e⟩ | ⟨c, _, e⟩
    · exact ⟨t, e⟩
    · exact ⟨s.raise c, e⟩
  cases i with
  | halt sm => exact ⟨s.halt, rfl⟩
  | inc sm r => exact ends _
  | movRR a b => exact ends _
  | movLoad r a => exact ends _
  | movStore r a => exact ends _
  | movMM d src => exact ends _
  | cmp sm r v => exact ends _
  | jmpNe sm a => exact ends _

/-- In RUN a step answers a next state (R54). -/
theorem exists_step_next {s : State} (hrun : s.status = .run) : ∃ t, step s = .next t := by
  rw [step_of_run hrun]
  cases fetch s with
  | instr i => exact exists_exec_next i s
  | raised c => exact ⟨s.raise c, rfl⟩
  | spin => exact ⟨s, rfl⟩

/-! ### How a run ends -/

/-- A run has ended where some number of its steps leads out of RUN (R22, R55). -/
theorem haltsIn_or_faultsIn_iff (s t : State) :
    HaltsIn s t ∨ FaultsIn s t ↔ ∃ k, runFor k s = .next t ∧ t.status ≠ .run := by
  constructor
  · rintro (⟨k, hk, ht⟩ | ⟨k, hk, ht⟩)
    · exact ⟨k, hk, by simp [ht]⟩
    · exact ⟨k, hk, by simp [ht]⟩
  · rintro ⟨k, hk, ht⟩
    cases hs : t.status with
    | run => exact absurd hs ht
    | halted => exact .inl ⟨k, hk, hs⟩
    | faulted => exact .inr ⟨k, hk, hs⟩

/-- A state with a step left before it is in RUN. -/
theorem status_run_of_runFor_lt {j k : Nat} {s t u : State} (hjk : j < k) (ht : runFor j s = .next t)
    (hu : runFor k s = .next u) : t.status = .run := by
  induction k generalizing u with
  | zero => omega
  | succ k ih =>
    obtain ⟨v, hv, hstep⟩ := (runFor_snoc k s u).1 hu
    rcases Nat.lt_succ_iff_lt_or_eq.1 hjk with hlt | rfl
    · exact ih hlt hv
    · cases ht.symm.trans hv
      exact (step_cases hstep).1

/-- A run leaves RUN in one state only: an earlier end would have no step to the later one. -/
theorem runFor_end_unique {j k : Nat} {s t u : State} (ht : runFor j s = .next t) (ht' : t.status ≠ .run)
    (hu : runFor k s = .next u) (hu' : u.status ≠ .run) : t = u := by
  rcases Nat.lt_trichotomy j k with hjk | rfl | hkj
  · exact absurd (status_run_of_runFor_lt hjk ht hu) ht'
  · exact Host.Outcome.next.inj (ht.symm.trans hu)
  · exact absurd (status_run_of_runFor_lt hkj hu ht) hu'

/-- A run that never leaves RUN never ends: each state it reaches has a next state. -/
theorem runsForever_of_no_end {s : State} (hrun : s.status = .run)
    (hno : ∀ t k, runFor k s = .next t → t.status = .run) : RunsForever s := by
  intro k
  induction k with
  | zero => exact ⟨s, runFor_zero s, hrun⟩
  | succ k ih =>
    obtain ⟨u, hu, hurun⟩ := ih
    obtain ⟨t, hstep⟩ := exists_step_next hurun
    have ht : runFor (k + 1) s = .next t := (runFor_snoc k s t).2 ⟨u, hu, hstep⟩
    exact ⟨t, ht, hno t (k + 1) ht⟩

/-- A run that never ends has no end state. -/
theorem not_haltsIn_or_faultsIn_of_runsForever {s t : State} (h : RunsForever s) : ¬ (HaltsIn s t ∨ FaultsIn s t) := by
  rw [haltsIn_or_faultsIn_iff]
  rintro ⟨k, hk, ht⟩
  obtain ⟨u, hu, hurun⟩ := h k
  cases hk.symm.trans hu
  exact ht hurun

/-- The state a run ends in is unique. -/
theorem end_state_unique {s t u : State} (ht : HaltsIn s t ∨ FaultsIn s t) (hu : HaltsIn s u ∨ FaultsIn s u) :
    t = u := by
  obtain ⟨j, hj, hj'⟩ := (haltsIn_or_faultsIn_iff s t).1 ht
  obtain ⟨k, hk, hk'⟩ := (haltsIn_or_faultsIn_iff s u).1 hu
  exact runFor_end_unique hj hj' hk hk'

/-- No run both halts and faults: its one end state has one status. -/
theorem not_faultsIn_of_haltsIn {s t u : State} (ht : HaltsIn s t) : ¬ FaultsIn s u := by
  intro hu
  obtain rfl := end_state_unique (.inl ht) (.inr hu)
  obtain ⟨_, _, hhalted⟩ := ht
  obtain ⟨_, _, hfaulted⟩ := hu
  cases hhalted.symm.trans hfaulted

/-- A run from RUN ends in HALTED, ends in FAULTED or never ends (R55). -/
theorem halts_or_faults_or_runsForever {s : State} (hrun : s.status = .run) :
    (∃ t, HaltsIn s t) ∨ (∃ t, FaultsIn s t) ∨ RunsForever s := by
  by_cases hend : ∃ t k, runFor k s = .next t ∧ t.status ≠ .run
  · obtain ⟨t, hend⟩ := hend
    rcases (haltsIn_or_faultsIn_iff s t).2 hend with ht | ht
    · exact .inl ⟨t, ht⟩
    · exact .inr (.inl ⟨t, ht⟩)
  · push Not at hend
    exact .inr (.inr (runsForever_of_no_end hrun hend))

/-- Settles O42: in RUN there is always a next state, and a state outside RUN is the last of its run. -/
theorem runEndsInExactlyOneWay : Obligations.RunEndsInExactlyOneWay := by
  intro s hrun
  refine ⟨halts_or_faults_or_runsForever hrun, ?_, ?_, ?_, fun _ _ => end_state_unique⟩
  · rintro ⟨⟨t, ht⟩, u, hu⟩
    exact not_faultsIn_of_haltsIn ht hu
  · rintro ⟨⟨t, ht⟩, hforever⟩
    exact not_haltsIn_or_faultsIn_of_runsForever hforever (.inl ht)
  · rintro ⟨⟨t, ht⟩, hforever⟩
    exact not_haltsIn_or_faultsIn_of_runsForever hforever (.inr ht)

end Sys2Proof.Machine
end

section
/-! PROOFS. The ALU instructions from their bytes (spec/41_alu.md R58, R59): the fault a known header records, its
operand fetch that leaves memory, and the two instructions. -/

namespace Sys2Proof.Machine

/-! ### Faults at a known header -/

theorem headerByte_of_atHeader {s : State} {op : Opcode} {sm : Submode} (h : s.AtHeader op sm) :
    s.headerByte = encodeHeader op sm := by
  obtain ⟨_, hpc, hheader⟩ := h
  rw [State.headerByte, if_pos hpc, hheader]

/-- A fault taken at a known header records that header (R74). -/
theorem raise_of_atHeader {s : State} {op : Opcode} {sm : Submode} (h : s.AtHeader op sm) (cause : FaultCause)
    (value : Nat) :
    s.raise { cause := cause, value := BitVec.ofNat 32 value } = s.faultedWith (encodeHeader op sm) cause value := by
  rw [State.raise, headerByte_of_atHeader h]
  rfl

/-- A known header whose operands do not end in memory is fetched as the fault of the first address outside. -/
theorem fetch_of_atHeader_outside {s : State} {op : Opcode} {sm : Submode} (h : s.AtHeader op sm)
    (hops : s.cfg.memSize < s.pc.toNat + 1 + Header.operandBytes ⟨op, sm⟩) :
    fetch s = .raised (addressRaise s.cfg.memSize) := by
  obtain ⟨_, hpc, hheader⟩ := h
  have hhd : decodeHeader (s.mem.read s.pc.toNat) = .ok ⟨op, sm⟩ := by
    rw [hheader, decodeHeader_encodeHeader]
  rcases fetch_cases s with ⟨hout, _⟩ | ⟨_, e, he, _⟩ | ⟨_, _, _, _, hf⟩ | ⟨hd, hd', hin, _⟩
  · omega
  · cases hhd.symm.trans he
  · exact hf
  · cases hhd.symm.trans hd'
    omega

/-- A step at such a header takes that fault (R69, case b). -/
theorem step_of_atHeader_outside {s : State} {op : Opcode} {sm : Submode} (h : s.AtHeader op sm)
    (hops : s.cfg.memSize < s.pc.toNat + 1 + Header.operandBytes ⟨op, sm⟩) :
    step s = .next (s.faultedWith (encodeHeader op sm) .addressOutOfBounds s.cfg.memSize) := by
  have ⟨hrun, _⟩ := h
  rw [step_of_run hrun, fetch_of_atHeader_outside h hops, ← raise_of_atHeader h]
  rfl

/-! ### A step at an ALU header -/

/-- Four operand bytes read from memory are the word that stands there (R10, R46). -/
theorem operandWord_readBytes (s : State) {a n i : Nat} (h : i + 3 < n) :
    operandWord (s.mem.readBytes a n) i = s.wordAt (a + i) := by
  simp (disch := omega) only [operandWord, operandByte_readBytes]
  rfl

/-- An INC whose operand byte lies in memory runs on the register that byte names. -/
theorem step_of_atHeader_inc {s : State} {sm : Submode} (h : s.AtHeader .inc sm)
    (hin : s.pc.toNat + 1 < s.cfg.memSize) : step s = execInc (s.mem.read (s.pc.toNat + 1)).toNat s :=
  step_of_atHeader h hin

/-- A CMP whose operand bytes lie in memory runs on the register and the immediate they name. -/
theorem step_of_atHeader_cmp {s : State} {sm : Submode} (h : s.AtHeader .cmp sm)
    (hin : s.pc.toNat + 5 < s.cfg.memSize) :
    step s = execCmp (s.mem.read (s.pc.toNat + 1)).toNat (s.wordAt (s.pc.toNat + 2)) s := by
  have hops : s.pc.toNat + 1 + Header.operandBytes ⟨.cmp, sm⟩ ≤ s.cfg.memSize := by
    rw [Header.operandBytes]
    omega
  have hv : operandWord (s.mem.readBytes (s.pc.toNat + 1) 5) 1 = s.wordAt (s.pc.toNat + 2) :=
    operandWord_readBytes s (by omega)
  rw [← hv]
  exact step_of_atHeader h hops

/-! ### The statements -/

/-- Settles O23: the operand byte lies outside memory, or names a legal register, or faults as an index. -/
theorem incHeaderIncrementsRegister : Obligations.IncHeaderIncrementsRegister := by
  intro s sm h p r
  have ⟨_, hpc, _⟩ := h
  split
  next hout =>
    have hend : p + 1 = s.cfg.memSize := le_antisymm hpc hout
    rw [hend]
    exact step_of_atHeader_outside h (Nat.lt_succ_of_le hout)
  next hin =>
    rw [step_of_atHeader_inc h (Nat.lt_of_not_le hin)]
    rcases execInc_cases r s with ⟨hr, e⟩ | ⟨hr, e⟩
    · rw [dif_pos hr]
      exact e
    · rw [dif_neg (Nat.not_lt.2 hr), ← raise_of_atHeader h]
      exact e

/-- Settles O24: the operand bytes leave memory, or name a legal register to compare, or fault as an index. -/
theorem cmpHeaderSetsFlagOnEquality : Obligations.CmpHeaderSetsFlagOnEquality := by
  intro s sm h p r
  split
  next hout =>
    refine step_of_atHeader_outside h ?_
    rw [Header.operandBytes]
    omega
  next hin =>
    rw [step_of_atHeader_cmp h (Nat.lt_of_not_le hin)]
    rcases execCmp_cases r (s.wordAt (p + 2)) s with ⟨hr, e⟩ | ⟨hr, e⟩
    · rw [dif_pos hr]
      exact e
    · rw [dif_neg (Nat.not_lt.2 hr), ← raise_of_atHeader h]
      exact e

end Sys2Proof.Machine
end

section
/-! PROOFS. JMP_NE from its bytes (spec/42_jump.md R61). -/

namespace Sys2Proof.Machine

/-- A JMP_NE whose operand bytes lie in memory runs on the target they name. -/
theorem step_of_atHeader_jmpNe {s : State} {sm : Submode} (h : s.AtHeader .jmpNe sm)
    (hin : s.pc.toNat + 4 < s.cfg.memSize) : step s = execJmpNe (s.wordAt (s.pc.toNat + 1)) s := by
  have hops : s.pc.toNat + 1 + Header.operandBytes ⟨.jmpNe, sm⟩ ≤ s.cfg.memSize := by
    rw [Header.operandBytes]
    omega
  have ha : operandWord (s.mem.readBytes (s.pc.toNat + 1) 4) 0 = s.wordAt (s.pc.toNat + 1) :=
    operandWord_readBytes s (by omega)
  rw [← ha]
  exact step_of_atHeader h hops

/-- Settles O25: the operand bytes leave memory, whatever the flag; or a set flag falls through with the target
unchecked; or a clear flag jumps to a target in memory and faults at one outside. -/
theorem jmpNeHeaderJumpsWhileFlagClear : Obligations.JmpNeHeaderJumpsWhileFlagClear := by
  intro s sm h p a
  split
  next hout =>
    refine step_of_atHeader_outside h ?_
    rw [Header.operandBytes]
    omega
  next hin =>
    rw [step_of_atHeader_jmpNe h (Nat.lt_of_not_le hin)]
    rcases execJmpNe_cases a s with ⟨hset, e⟩ | ⟨hclear, ha, e⟩ | ⟨hclear, ha, e⟩
    · rw [if_pos hset]
      exact e
    · rw [if_neg (Bool.eq_false_iff.1 hclear), if_neg (Nat.not_le.2 ha)]
      exact e
    · rw [if_neg (Bool.eq_false_iff.1 hclear), if_pos ha, ← raise_of_atHeader h]
      exact e

end Sys2Proof.Machine
end

section
/-! PROOFS. The four MOV forms from their bytes (spec/43_mov.md R64 to R67): the instruction each header runs, the value
a load gives, the bytes a store leaves, and the fault of each check. -/

namespace Sys2Proof.Machine

/-! ### A step at a MOV header -/

/-- A MOV between registers whose operand byte lies in memory runs on its two nibbles, the source in the high one. -/
theorem step_of_atHeader_movRR {s : State} (h : s.AtHeader .mov .regToReg)
    (hin : s.pc.toNat + 1 < s.cfg.memSize) :
    step s = execMovRR ((s.mem.read (s.pc.toNat + 1)).toNat / 16) ((s.mem.read (s.pc.toNat + 1)).toNat % 16) s := by
  rw [← toNat_hiNibble, ← toNat_loNibble]
  exact step_of_atHeader h hin

/-- The address of a load or a store stands after its register byte (R46). -/
theorem operandWord_after_register (s : State) :
    operandWord (s.mem.readBytes (s.pc.toNat + 1) 5) 1 = s.wordAt (s.pc.toNat + 2) :=
  operandWord_readBytes s (by omega)

/-- A load whose operand bytes lie in memory runs on the register and the address they name. -/
theorem step_of_atHeader_movLoad {s : State} (h : s.AtHeader .mov .memToReg)
    (hin : s.pc.toNat + 5 < s.cfg.memSize) :
    step s = execMovLoad (s.mem.read (s.pc.toNat + 1)).toNat (s.wordAt (s.pc.toNat + 2)) s := by
  rw [← operandWord_after_register s]
  exact step_of_atHeader h hin

/-- A store whose operand bytes lie in memory runs on the register and the address they name. -/
theorem step_of_atHeader_movStore {s : State} (h : s.AtHeader .mov .regToMem)
    (hin : s.pc.toNat + 5 < s.cfg.memSize) :
    step s = execMovStore (s.mem.read (s.pc.toNat + 1)).toNat (s.wordAt (s.pc.toNat + 2)) s := by
  rw [← operandWord_after_register s]
  exact step_of_atHeader h hin

/-- A copy whose operand bytes lie in memory runs on the two addresses they name, the destination first. -/
theorem step_of_atHeader_movMM {s : State} (h : s.AtHeader .mov .memToMem)
    (hin : s.pc.toNat + 8 < s.cfg.memSize) :
    step s = execMovMM (s.wordAt (s.pc.toNat + 1)) (s.wordAt (s.pc.toNat + 5)) s := by
  have hd : operandWord (s.mem.readBytes (s.pc.toNat + 1) 8) 0 = s.wordAt (s.pc.toNat + 1) :=
    operandWord_readBytes s (by omega)
  have hsrc : operandWord (s.mem.readBytes (s.pc.toNat + 1) 8) 4 = s.wordAt (s.pc.toNat + 5) :=
    operandWord_readBytes s (by omega)
  rw [← hd, ← hsrc]
  exact step_of_atHeader h hin

/-! ### The value a load gives and the bytes a store leaves -/

/-- One byte is loaded with zeros above it (R65). -/
theorem loadedWord_one (b : Byte) : loadedWord [b] = b.setWidth 32 := BitVec.ofNat_toNat 32 b

/-- The bytes a load reads are the value R65 names, for both values of `MOVW`. -/
theorem loadedWord_readBytes_movw (s : State) (a : Nat) :
    loadedWord (s.mem.readBytes a s.cfg.movw.bytes) = s.loadValue a := by
  cases hw : s.cfg.movw with
  | one =>
    simp only [State.loadValue, hw]
    exact loadedWord_one (s.mem.read a)
  | four =>
    simp only [State.loadValue, hw]
    exact loadedWord_readBytes_four s a

/-- Every byte after a write of `n` bytes, given one by one as `f`: those of the range are the ones written. -/
theorem read_writeBytes {m : Memory} (hm : m.wf) (a k : Nat) {n : Nat} {bs : List Byte} {f : Nat → Byte}
    (hlen : bs.length = n) (hf : ∀ i (hi : i < bs.length), bs[i] = f i) :
    (m.writeBytes a bs).read k = if a ≤ k ∧ k < a + n then f (k - a) else m.read k := by
  subst hlen
  split
  next hin =>
    obtain ⟨hle, hlt⟩ := hin
    obtain ⟨i, rfl⟩ := Nat.exists_eq_add_of_le hle
    have hi : i < bs.length := by omega
    rw [read_writeBytes_inside hm a i bs hi, hf i hi, Nat.add_sub_cancel_left]
  next hout => exact read_writeBytes_outside m a k bs hout

/-! ### The statements -/

/-- Settles O26: the operand byte lies outside memory, or its nibbles name two legal registers, or the source faults as
an index, or else the destination. -/
theorem movRRHeaderCopiesRegister : Obligations.MovRRHeaderCopiesRegister := by
  intro s h p a b
  have ⟨_, hpc, _⟩ := h
  split
  next hout =>
    have hend : p + 1 = s.cfg.memSize := le_antisymm hpc hout
    rw [hend]
    exact step_of_atHeader_outside h (Nat.lt_succ_of_le hout)
  next hin =>
    rw [step_of_atHeader_movRR h (Nat.lt_of_not_le hin)]
    have hcases := execMovRR_cases a b s
    simp only [raise_of_atHeader h] at hcases
    rcases hcases with ⟨ha, hb, e⟩ | ⟨ha, e⟩ | ⟨ha, hb, e⟩
    · rw [dif_pos ha, dif_pos hb]
      exact e
    · rw [dif_neg (Nat.not_lt.2 ha)]
      exact e
    · rw [dif_pos ha, dif_neg (Nat.not_lt.2 hb)]
      exact e

/-- Settles O27: the operand bytes leave memory, or name a register and a range to load from, or the register faults as
an index, or else the range at its first address outside. -/
theorem movLoadHeaderLoadsRegister : Obligations.MovLoadHeaderLoadsRegister := by
  intro s h p r a
  split
  next hout => exact step_of_atHeader_outside h (Nat.lt_succ_of_le hout)
  next hin =>
    rw [step_of_atHeader_movLoad h (Nat.lt_of_not_le hin)]
    have hcases := execMovLoad_cases r (s.wordAt (p + 2)) s
    simp only [effectiveAddress, addressRaise, raise_of_atHeader h, loadedWord_readBytes_movw] at hcases
    rcases hcases with ⟨hr, ha, e⟩ | ⟨hr, e⟩ | ⟨hr, ha, e⟩
    · rw [dif_pos hr, if_neg (Nat.not_lt.2 ha)]
      exact e
    · rw [dif_neg (Nat.not_lt.2 hr)]
      exact e
    · rw [dif_pos hr, if_pos ha]
      exact e

/-- Settles O28: each clause leaves one way for the store to end, and the bytes after it are those of the write. -/
theorem movStoreHeaderStoresRegister : Obligations.MovStoreHeaderStoresRegister := by
  intro s h hm p r a w
  have hcases := execMovStore_cases r (s.wordAt (p + 2)) s
  simp only [effectiveAddress, addressRaise, raise_of_atHeader h] at hcases
  refine ⟨fun hout => step_of_atHeader_outside h (Nat.lt_succ_of_le hout), fun hin hr => ?_,
    fun hin hr ha => ?_, fun hr hin ha => ?_⟩
  · obtain ⟨_, e⟩ := (hcases.resolve_left (by rintro ⟨hr', _⟩; omega)).resolve_right (by omega)
    exact (step_of_atHeader_movStore h hin).trans e
  · obtain ⟨_, _, e⟩ := (hcases.resolve_left (by rintro ⟨_, ha', _⟩; omega)).resolve_left (by omega)
    exact (step_of_atHeader_movStore h hin).trans e
  · obtain ⟨_, _, e⟩ := hcases.resolve_right (by omega)
    exact ⟨_, (step_of_atHeader_movStore h hin).trans e, rfl, ⟨rfl, rfl, rfl, rfl, rfl⟩,
      fun k => read_writeBytes hm a k (storedBytes_length _ _) (getElem_leBytes w s.regs[r])⟩

/-- Settles O29: each clause leaves one way for the copy to end, and the bytes it writes are those read before it. -/
theorem movMMHeaderCopiesMemory : Obligations.MovMMHeaderCopiesMemory := by
  intro s h hm p d src w
  have hcases := execMovMM_cases (s.wordAt (p + 1)) (s.wordAt (p + 5)) s
  simp only [effectiveAddress, addressRaise, raise_of_atHeader h] at hcases
  refine ⟨fun hout => step_of_atHeader_outside h (Nat.lt_succ_of_le hout), fun hin hsrc => ?_, fun hin hsrc hd => ?_,
    fun hin hsrc hd => ?_⟩
  · obtain ⟨_, e⟩ := (hcases.resolve_left (by omega)).resolve_right (by omega)
    exact (step_of_atHeader_movMM h hin).trans e
  · obtain ⟨_, _, e⟩ := (hcases.resolve_left (by omega)).resolve_left (by omega)
    exact (step_of_atHeader_movMM h hin).trans e
  · obtain ⟨_, _, e⟩ := hcases.resolve_right (by omega)
    exact ⟨_, (step_of_atHeader_movMM h hin).trans e, rfl, ⟨rfl, rfl, rfl, rfl, rfl⟩,
      fun k => read_writeBytes hm d k (readBytes_length _ _ _) (readBytes_getElem s.mem src w)⟩

end Sys2Proof.Machine
end

section
/-! PROOFS. Faults (spec/60_exceptions.md R68 to R74): the index faults, the two faults of an unknown header, and what a
step that faults records and leaves. -/

namespace Sys2Proof

/-! ### Register operands -/

/-- The register operands of an instruction (R15, R47). -/
def Instr.registerOperands : Instr → List Nat
  | .halt _ => []
  | .inc _ r => [r]
  | .movRR a b => [a, b]
  | .movLoad r _ => [r]
  | .movStore r _ => [r]
  | .movMM _ _ => []
  | .cmp _ r _ => [r]
  | .jmpNe _ _ => []

/-- Every register operand of a decoded instruction fits the byte or the nibble it was read from (R15). -/
theorem registerOperands_instr_lt {hd : Header} {ops : List Byte} {r : Nat}
    (h : r ∈ (hd.instr ops).registerOperands) : r < 256 := by
  have hbyte : (operandByte ops 0).toNat < 256 := (operandByte ops 0).isLt
  obtain ⟨op, sm⟩ := hd
  cases op with
  | mov =>
    cases sm with
    | regToReg =>
      rcases List.mem_pair.1 h with rfl | rfl
      · rw [toNat_hiNibble]
        omega
      · rw [toNat_loNibble]
        omega
    | memToReg => exact List.mem_singleton.1 h ▸ hbyte
    | regToMem => exact List.mem_singleton.1 h ▸ hbyte
    | memToMem => cases h
  | halt => cases h
  | inc => exact List.mem_singleton.1 h ▸ hbyte
  | cmp => exact List.mem_singleton.1 h ▸ hbyte
  | jmpNe => cases h

/-! ### The errors of the decoder -/

/-- An opcode nibble of 5 to 15 is the first error, whatever the submode nibble (R71). -/
theorem decodeHeader_of_unknown_opcode {h : Byte} (hlo : 5 ≤ h.toNat % 16) :
    decodeHeader h = .error (.invalidOpcode (loNibble h)) := by
  rcases decodeHeader_cases h with ⟨_, e⟩ | ⟨hlt, _⟩ | ⟨hlt, _⟩
  · exact e
  · omega
  · omega

/-- A submode nibble of 4 to 15 is the error of every known opcode (R72). -/
theorem decodeHeader_of_unknown_submode {h : Byte} (hlo : h.toNat % 16 ≤ 4) (hhi : 4 ≤ h.toNat / 16) :
    decodeHeader h = .error (.invalidTransferMode (hiNibble h)) := by
  rcases decodeHeader_cases h with ⟨hge, _⟩ | ⟨_, _, e⟩ | ⟨_, hlt, _⟩
  · omega
  · exact e
  · omega

namespace Machine

/-! ### Unknown headers -/

/-- A fault of a header in memory with a nibble for its value records both (R74). -/
theorem raise_nibble {s : State} (hpc : s.pc.toNat < s.cfg.memSize) (cause : FaultCause) (n : BitVec 4) :
    s.raise { cause := cause, value := n.setWidth 32 } = s.faultedWith (s.mem.read s.pc.toNat) cause n.toNat := by
  rw [State.raise, State.headerByte, if_pos hpc, State.faultedWith, BitVec.ofNat_toNat]

/-- Settles O32: the opcode nibble alone makes the header unknown, and it is the value recorded. -/
theorem unknownOpcodeRaises : Obligations.UnknownOpcodeRaises := by
  intro s hrun hpc h hlo
  have he : decodeHeader h = .error (.invalidOpcode (loNibble h)) := decodeHeader_of_unknown_opcode hlo
  refine ⟨fun hu => ?_, step_unknown_header_of_spin hrun hpc he⟩
  rw [← toNat_loNibble, ← raise_nibble hpc]
  exact step_unknown_header_of_fault hrun hpc he hu

/-- Settles O33: under a known opcode the submode nibble makes the header unknown, and it is the value recorded. -/
theorem unknownSubmodeRaises : Obligations.UnknownSubmodeRaises := by
  intro s hrun hpc h hlo hhi
  have he : decodeHeader h = .error (.invalidTransferMode (hiNibble h)) := decodeHeader_of_unknown_submode hlo hhi
  refine ⟨fun hu => ?_, step_unknown_header_of_spin hrun hpc he⟩
  rw [← toNat_hiNibble, ← raise_nibble hpc]
  exact step_unknown_header_of_fault hrun hpc he hu

/-! ### What an instruction raises -/

/-- The faults an instruction can raise once it has been fetched: an illegal index of its own (R70), or an address
outside memory, which is the larger of an address and `MEM_SIZE` (R69, cases c, d and e). -/
inductive ExecRaises (s : State) (i : Instr) : Raise → Prop where
  | register (r : Nat) (hmem : r ∈ i.registerOperands) (hr : 7 ≤ r) :
      ExecRaises s i { cause := .registerOutOfBounds, value := BitVec.ofNat 32 r }
  | address (a : Word) : ExecRaises s i (addressRaise (max a.toNat s.cfg.memSize))

/-- An instruction completes or takes one of its faults. -/
theorem completes_or_execRaises {i : Instr} {s t : State} (h : exec i s = .next t) :
    Completes s t i ∨ ∃ c, ExecRaises s i c ∧ t = s.raise c := by
  have ends {u : State} (e : exec i s = .next u) : t = u := Host.Outcome.next.inj (h.symm.trans e)
  cases i with
  | halt sm => exact .inl (ends rfl)
  | inc sm r =>
    rcases execInc_cases r s with ⟨hr, e⟩ | ⟨hr, e⟩
    · exact .inl ⟨hr, ends e⟩
    · exact .inr ⟨_, .register r (.head _) hr, ends e⟩
  | movRR a b =>
    rcases execMovRR_cases a b s with ⟨ha, hb, e⟩ | ⟨ha, e⟩ | ⟨_, hb, e⟩
    · exact .inl ⟨ha, hb, ends e⟩
    · exact .inr ⟨_, .register a (.head _) ha, ends e⟩
    · exact .inr ⟨_, .register b (.tail _ (.head _)) hb, ends e⟩
  | movLoad r a =>
    rcases execMovLoad_cases r a s with ⟨hr, ha, e⟩ | ⟨hr, e⟩ | ⟨_, _, e⟩
    · exact .inl ⟨hr, ha, ends e⟩
    · exact .inr ⟨_, .register r (.head _) hr, ends e⟩
    · exact .inr ⟨_, .address a, ends e⟩
  | movStore r a =>
    rcases execMovStore_cases r a s with ⟨hr, ha, e⟩ | ⟨hr, e⟩ | ⟨_, _, e⟩
    · exact .inl ⟨hr, ha, ends e⟩
    · exact .inr ⟨_, .register r (.head _) hr, ends e⟩
    · exact .inr ⟨_, .address a, ends e⟩
  | movMM d src =>
    rcases execMovMM_cases d src s with ⟨hsrc, hd, e⟩ | ⟨_, e⟩ | ⟨_, _, e⟩
    · exact .inl ⟨hsrc, hd, ends e⟩
    · exact .inr ⟨_, .address src, ends e⟩
    · exact .inr ⟨_, .address d, ends e⟩
  | cmp sm r v =>
    rcases execCmp_cases r v s with ⟨hr, e⟩ | ⟨hr, e⟩
    · exact .inl ⟨hr, ends e⟩
    · exact .inr ⟨_, .register r (.head _) hr, ends e⟩
  | jmpNe sm a =>
    rcases execJmpNe_cases a s with ⟨hf, e⟩ | ⟨hf, ha, e⟩ | ⟨_, ha, e⟩
    · exact .inl (.inl ⟨hf, ends e⟩)
    · exact .inl (.inr ⟨hf, ha, ends e⟩)
    · exact .inr ⟨_, .address a, by rw [max_eq_left ha]; exact ends e⟩

/-- An instruction that ends in FAULTED has taken one of its faults. -/
theorem execRaises_of_exec_faulted {i : Instr} {s t : State} (hs : s.status ≠ .faulted) (h : exec i s = .next t)
    (ht : t.status = .faulted) : ∃ c, ExecRaises s i c ∧ t = s.raise c := by
  refine (completes_or_execRaises h).resolve_left fun hc => ?_
  rcases status_of_completes hc with hsame | hhalted
  · exact hs (hsame.symm.trans ht)
  · cases hhalted.symm.trans ht

/-! ### Index faults -/

/-- An instruction without register operands never raises RegisterOutOfBounds. -/
theorem cause_ne_registerOutOfBounds {i : Instr} {s t : State} (hi : i.registerOperands = [])
    (hs : s.status ≠ .faulted) (h : exec i s = .next t) (ht : t.status = .faulted) :
    t.fault.cause ≠ .registerOutOfBounds := by
  obtain ⟨c, hc, rfl⟩ := execRaises_of_exec_faulted hs h ht
  cases hc with
  | register r hmem hr =>
    rw [hi] at hmem
    cases hmem
  | address a => exact nofun

/-- Settles O20: an illegal index leaves each meaning one way to end, and an instruction without register operands has
no such end. -/
theorem registerIndexTraps : Obligations.RegisterIndexTraps := by
  refine ⟨fun s sm r v a hr _ => ⟨?_, ?_, ?_, ?_⟩, fun s a b ha _ => ?_, fun s a b ha hb _ => ?_, ?_⟩
  · obtain ⟨_, e⟩ := (execInc_cases r s).resolve_left (by rintro ⟨hr', _⟩; omega)
    exact e
  · obtain ⟨_, e⟩ := (execCmp_cases r v s).resolve_left (by rintro ⟨hr', _⟩; omega)
    exact e
  · rcases execMovLoad_cases r a s with ⟨hr', _⟩ | ⟨_, e⟩ | ⟨hr', _⟩
    · omega
    · exact e
    · omega
  · rcases execMovStore_cases r a s with ⟨hr', _⟩ | ⟨_, e⟩ | ⟨hr', _⟩
    · omega
    · exact e
    · omega
  · rcases execMovRR_cases a b s with ⟨ha', _⟩ | ⟨_, e⟩ | ⟨ha', _⟩
    · omega
    · exact e
    · omega
  · rcases execMovRR_cases a b s with ⟨_, hb', _⟩ | ⟨ha', _⟩ | ⟨_, _, e⟩
    · omega
    · omega
    · exact e
  · rintro s t sm a d src hs (h | h | h) ht
    · exact cause_ne_registerOutOfBounds rfl hs h ht
    · exact cause_ne_registerOutOfBounds rfl hs h ht
    · exact cause_ne_registerOutOfBounds rfl hs h ht

/-! ### The value a fault records -/

/-- The value raised is one that R68 gives the cause. -/
def Raise.Legal (memSize : Nat) (c : Raise) : Prop := FaultValueLegal memSize c.value c.cause

/-- With `MEM_SIZE` in its range an address outside memory fits the record (R69). -/
theorem addressRaise_legal {cfg : Config} (hwf : cfg.wf) (a : Word) :
    (addressRaise (max a.toNat cfg.memSize)).Legal cfg.memSize := by
  obtain ⟨_, hsize⟩ := hwf
  have ha : a.toNat < 2 ^ 32 := a.isLt
  show cfg.memSize ≤ (BitVec.ofNat 32 (max a.toNat cfg.memSize)).toNat
  rw [BitVec.toNat_ofNat, Nat.mod_eq_of_lt (by omega)]
  exact le_max_right _ _

/-- An illegal index that fits a byte is recorded as it is (R70). -/
theorem registerRaise_legal (memSize : Nat) {r : Nat} (hr : 7 ≤ r) (hr' : r < 256) :
    Raise.Legal memSize { cause := .registerOutOfBounds, value := BitVec.ofNat 32 r } := by
  show 7 ≤ (BitVec.ofNat 32 r).toNat ∧ (BitVec.ofNat 32 r).toNat ≤ 255
  rw [BitVec.toNat_ofNat, Nat.mod_eq_of_lt (by omega)]
  omega

/-- The nibble that makes a header unknown is recorded as it is (R71, R72). -/
theorem headerRaise_legal (memSize : Nat) {h : Byte} {e : HeaderError} (he : decodeHeader h = .error e) :
    (headerRaise e).Legal memSize := by
  have hbyte : h.toNat < 256 := h.isLt
  rcases decodeHeader_cases h with ⟨hlo, e'⟩ | ⟨_, hhi, e'⟩ | ⟨_, _, op, sm, rfl⟩
  · cases he.symm.trans e'
    show 5 ≤ ((loNibble h).setWidth 32).toNat ∧ ((loNibble h).setWidth 32).toNat ≤ 15
    rw [BitVec.toNat_setWidth_of_le (by omega), toNat_loNibble]
    omega
  · cases he.symm.trans e'
    show 4 ≤ ((hiNibble h).setWidth 32).toNat ∧ ((hiNibble h).setWidth 32).toNat ≤ 15
    rw [BitVec.toNat_setWidth_of_le (by omega), toNat_hiNibble]
    omega
  · cases he.symm.trans (decodeHeader_encodeHeader op sm)

/-- An unknown header raises nothing but its own fault. -/
theorem eq_headerRaise_of_unknownHeader {u : UnknownEnc} {e : HeaderError} {c : Raise}
    (h : unknownHeader u e = .raised c) : c = headerRaise e := by
  cases u with
  | fault => exact (Fetched.raised.inj h).symm
  | spin => cases h

/-- What a fetch raises is legal. -/
theorem legal_of_fetch_raised {s : State} {c : Raise} (hwf : s.cfg.wf) (h : fetch s = .raised c) :
    c.Legal s.cfg.memSize := by
  rcases fetch_cases s with ⟨hpc, e⟩ | ⟨_, err, herr, e⟩ | ⟨hpc, _, _, _, e⟩ | ⟨_, _, _, e⟩
  · cases h.symm.trans e
    rw [← max_eq_left hpc]
    exact addressRaise_legal hwf s.pc
  · obtain rfl := eq_headerRaise_of_unknownHeader (e.symm.trans h)
    exact headerRaise_legal _ herr
  · cases h.symm.trans e
    have hlegal := addressRaise_legal hwf s.pc
    rwa [max_eq_right hpc.le] at hlegal
  · cases h.symm.trans e

/-- An unknown header is not fetched as an instruction. -/
theorem unknownHeader_ne_instr (u : UnknownEnc) (e : HeaderError) (i : Instr) : unknownHeader u e ≠ .instr i := by
  cases u with
  | fault => exact nofun
  | spin => exact nofun

/-- A fetched register operand fits a byte. -/
theorem registerOperands_fetched_lt {s : State} {i : Instr} {r : Nat} (h : fetch s = .instr i)
    (hr : r ∈ i.registerOperands) : r < 256 := by
  rcases fetch_cases s with ⟨_, e⟩ | ⟨_, err, _, e⟩ | ⟨_, _, _, _, e⟩ | ⟨hd, _, _, e⟩
  · cases h.symm.trans e
  · exact absurd (e.symm.trans h) (unknownHeader_ne_instr _ err i)
  · cases h.symm.trans e
  · cases h.symm.trans e
    exact registerOperands_instr_lt hr

/-- What a fetched instruction raises is legal. -/
theorem legal_of_execRaises {s : State} {i : Instr} {c : Raise} (hwf : s.cfg.wf) (hf : fetch s = .instr i)
    (h : ExecRaises s i c) : c.Legal s.cfg.memSize := by
  cases h with
  | register r hmem hr => exact registerRaise_legal _ hr (registerOperands_fetched_lt hf hmem)
  | address a => exact addressRaise_legal hwf a

/-! ### Taking a fault -/

/-- A step that ends in FAULTED has taken a fault with a legal value. -/
theorem legal_raise_of_step_faulted {s t : State} (hwf : s.cfg.wf) (h : step s = .next t)
    (ht : t.status = .faulted) : ∃ c : Raise, c.Legal s.cfg.memSize ∧ t = s.raise c := by
  obtain ⟨hrun, ⟨i, hf, he⟩ | ⟨c, hf, rfl⟩ | ⟨_, rfl⟩⟩ := step_cases h
  · obtain ⟨c, hc, rfl⟩ := execRaises_of_exec_faulted (by simp [hrun]) he ht
    exact ⟨c, legal_of_execRaises hwf hf hc, rfl⟩
  · exact ⟨c, legal_of_fetch_raised hwf hf, rfl⟩
  · cases hrun.symm.trans ht

/-- Settles O37: a step that ends in FAULTED takes a fault, which writes the status and the record alone. -/
theorem faultEntryIsPrecise : Obligations.FaultEntryIsPrecise := by
  intro s t hwf h ht
  obtain ⟨c, hc, rfl⟩ := legal_raise_of_step_faulted hwf h ht
  exact ⟨raise_pc s c, raise_regs s c, raise_flag s c, raise_mem s c, raise_cfg s c, rfl, rfl, hc⟩

end Machine

end Sys2Proof
end

section
/-! PROOFS. The decoder and the encoder on whole instructions (spec/30_encoding.md R42, R46): each inverts the other. An
instruction is split as its bytes are, in a header and operand bytes. -/

namespace Sys2Proof

/-! ### Words and their bytes (R10) -/

theorem toNat_leByte (v : Word) (i : Nat) : (leByte v i).toNat = v.toNat / 2 ^ (8 * i) % 256 := by
  rw [leByte, BitVec.extractLsb'_toNat, Nat.shiftRight_eq_div_pow]

theorem toNat_le32 (b0 b1 b2 b3 : Byte) :
    (le32 b0 b1 b2 b3).toNat = b0.toNat + 256 * b1.toNat + 65536 * b2.toNat + 16777216 * b3.toNat := by
  rw [le32, BitVec.toNat_ofNat]
  exact Nat.mod_eq_of_lt (by omega)

/-- A word is the `le32` of its bytes. -/
@[simp] theorem le32_leByte (v : Word) : le32 (leByte v 0) (leByte v 1) (leByte v 2) (leByte v 3) = v := by
  apply BitVec.eq_of_toNat_eq
  have hv : v.toNat < 2 ^ 32 := v.isLt
  simp only [toNat_le32, toNat_leByte]
  omega

theorem leBytes_four (v : Word) : leBytes 4 v = [leByte v 0, leByte v 1, leByte v 2, leByte v 3] := rfl

/-- The bytes of a `le32` are the four it was made of. -/
@[simp] theorem leBytes_le32 (b0 b1 b2 b3 : Byte) : leBytes 4 (le32 b0 b1 b2 b3) = [b0, b1, b2, b3] := by
  have hbyte (i : Nat) (b : Byte) (h : (le32 b0 b1 b2 b3).toNat / 2 ^ (8 * i) % 256 = b.toNat) :
      leByte (le32 b0 b1 b2 b3) i = b := BitVec.eq_of_toNat_eq ((toNat_leByte _ i).trans h)
  rw [toNat_le32] at hbyte
  rw [leBytes_four, hbyte 0 b0 (by omega), hbyte 1 b1 (by omega), hbyte 2 b2 (by omega), hbyte 3 b3 (by omega)]

/-! ### Operand bytes -/

/-- Operand bytes from `i` on begin with operand byte `i`. -/
theorem drop_operands {ops : List Byte} {i : Nat} (h : i < ops.length) :
    ops.drop i = operandByte ops i :: ops.drop (i + 1) := by
  rw [List.drop_eq_getElem_cons h, operandByte, List.getD_eq_getElem _ _ h]

/-- The bytes of the word read at `i` are the four bytes from there on. -/
theorem leBytes_operandWord {ops : List Byte} {i : Nat} (h : i + 4 ≤ ops.length) :
    leBytes 4 (operandWord ops i) = (ops.drop i).take 4 := by
  rw [operandWord, leBytes_le32, drop_operands (by omega : i < ops.length),
    drop_operands (by omega : i + 1 < ops.length), drop_operands (by omega : i + 2 < ops.length),
    drop_operands (by omega : i + 3 < ops.length)]
  rfl

theorem take_one_operands {ops : List Byte} (h : 1 ≤ ops.length) : ops.take 1 = [operandByte ops 0] :=
  congrArg (List.take 1) (drop_operands h)

/-- The register byte is the first operand byte. -/
theorem register_byte_eq_take {ops : List Byte} (h : 1 ≤ ops.length) :
    [BitVec.ofNat 8 (operandByte ops 0).toNat] = ops.take 1 := by
  rw [take_one_operands h, BitVec.ofNat_toNat, BitVec.setWidth_eq]

/-- A register byte and the word after it are the first five operand bytes. -/
theorem register_word_eq_take {ops : List Byte} (h : 5 ≤ ops.length) :
    [BitVec.ofNat 8 (operandByte ops 0).toNat] ++ leBytes 4 (operandWord ops 1) = ops.take 5 := by
  rw [register_byte_eq_take (by omega), leBytes_operandWord h, ← List.take_add]

/-! ### An instruction as a header and its operand bytes -/

/-- The header of an instruction (R44, R45). -/
def Instr.header : Instr → Header
  | .halt sm => ⟨.halt, sm⟩
  | .inc sm _ => ⟨.inc, sm⟩
  | .movRR _ _ => ⟨.mov, .regToReg⟩
  | .movLoad _ _ => ⟨.mov, .memToReg⟩
  | .movStore _ _ => ⟨.mov, .regToMem⟩
  | .movMM _ _ => ⟨.mov, .memToMem⟩
  | .cmp sm _ _ => ⟨.cmp, sm⟩
  | .jmpNe sm _ => ⟨.jmpNe, sm⟩

/-- The operand bytes of an instruction (R46). -/
def Instr.operands : Instr → List Byte
  | .halt _ => []
  | .inc _ r => [BitVec.ofNat 8 r]
  | .movRR a b => [joinNibbles (BitVec.ofNat 4 a) (BitVec.ofNat 4 b)]
  | .movLoad r a => [BitVec.ofNat 8 r] ++ leBytes 4 a
  | .movStore r a => [BitVec.ofNat 8 r] ++ leBytes 4 a
  | .movMM d src => leBytes 4 d ++ leBytes 4 src
  | .cmp _ r v => [BitVec.ofNat 8 r] ++ leBytes 4 v
  | .jmpNe _ a => leBytes 4 a

theorem encode_eq (i : Instr) : encode i = encodeHeader i.header.op i.header.sm :: i.operands := by
  cases i <;> rfl

theorem length_operands (i : Instr) : i.operands.length = i.header.operandBytes := by
  cases i <;> rfl

/-- A register index that fits its byte is read back from it (R15). -/
theorem toNat_register_byte {r : Nat} (h : decide (r < 256) = true) : (BitVec.ofNat 8 r).toNat = r := by
  rw [BitVec.toNat_ofNat]
  exact Nat.mod_eq_of_lt (of_decide_eq_true h)

/-- The header of a well-formed instruction reads it back from its operand bytes, whatever follows them. -/
theorem instr_header_operands {i : Instr} (h : i.WellFormed = true) (rest : List Byte) :
    i.header.instr (i.operands ++ rest) = i := by
  cases i with
  | halt sm => rfl
  | inc sm r => exact congrArg (Instr.inc sm) (toNat_register_byte h)
  | movRR a b =>
    obtain ⟨ha, hb⟩ : a < 16 ∧ b < 16 := by simpa [Instr.WellFormed] using h
    simp [Instr.header, Instr.operands, Header.instr, operandByte, Nat.mod_eq_of_lt, ha, hb]
  | movLoad r a => exact congrArg₂ Instr.movLoad (toNat_register_byte h) (le32_leByte a)
  | movStore r a => exact congrArg₂ Instr.movStore (toNat_register_byte h) (le32_leByte a)
  | movMM d src => exact congrArg₂ Instr.movMM (le32_leByte d) (le32_leByte src)
  | cmp sm r v => exact congrArg₂ (Instr.cmp sm) (toNat_register_byte h) (le32_leByte v)
  | jmpNe sm a => exact congrArg (Instr.jmpNe sm) (le32_leByte a)

/-! ### What a header makes of operand bytes -/

/-- The instruction read under a header has that header. -/
@[simp] theorem header_instr (hd : Header) (ops : List Byte) : (hd.instr ops).header = hd := by
  obtain ⟨op, sm⟩ := hd
  cases op with
  | mov => cases sm <;> rfl
  | halt => rfl
  | inc => rfl
  | cmp => rfl
  | jmpNe => rfl

/-- A decoded instruction is well-formed: each index was read from the field that must hold it. -/
theorem wellFormed_instr (hd : Header) (ops : List Byte) : (hd.instr ops).WellFormed = true := by
  have hbyte : decide ((operandByte ops 0).toNat < 256) = true := decide_eq_true (operandByte ops 0).isLt
  obtain ⟨op, sm⟩ := hd
  cases op with
  | mov =>
    cases sm with
    | regToReg =>
      exact Bool.and_eq_true_iff.2 ⟨decide_eq_true (hiNibble _).isLt, decide_eq_true (loNibble _).isLt⟩
    | memToReg => exact hbyte
    | regToMem => exact hbyte
    | memToMem => rfl
  | halt => rfl
  | inc => exact hbyte
  | cmp => exact hbyte
  | jmpNe => rfl

/-- The instruction read from enough operand bytes has the first of them for its own. -/
theorem operands_instr {hd : Header} {ops : List Byte} (h : hd.operandBytes ≤ ops.length) :
    (hd.instr ops).operands = ops.take hd.operandBytes := by
  obtain ⟨op, sm⟩ := hd
  cases op with
  | mov =>
    cases sm with
    | regToReg =>
      rw [Header.instr, Instr.operands, BitVec.ofNat_toNat, BitVec.ofNat_toNat, BitVec.setWidth_eq, BitVec.setWidth_eq,
        joinNibbles_nibbles]
      exact (take_one_operands h).symm
    | memToReg => exact register_word_eq_take h
    | regToMem => exact register_word_eq_take h
    | memToMem =>
      have hd : leBytes 4 (operandWord ops 0) = ops.take 4 := leBytes_operandWord (Nat.le_trans (by decide) h)
      have hsrc : leBytes 4 (operandWord ops 4) = (ops.drop 4).take 4 := leBytes_operandWord h
      exact (congrArg₂ (· ++ ·) hd hsrc).trans List.take_add.symm
  | halt => rfl
  | inc => exact register_byte_eq_take h
  | cmp => exact register_word_eq_take h
  | jmpNe => exact leBytes_operandWord (i := 0) h

/-! ### The statements -/

/-- Settles O4: the header of the encoding is the instruction's own, and reads its operand bytes back. -/
theorem decodeOfEncode : Obligations.DecodeOfEncode := by
  intro i rest h
  rw [encode_eq, List.cons_append, decode_cons_eq_ok_iff]
  refine ⟨i.header, decodeHeader_encodeHeader _ _, ?_, (instr_header_operands h rest).symm, ?_⟩
  · rw [List.length_append, length_operands]
    exact Nat.le_add_right _ _
  · rw [← length_operands, List.drop_left]

/-- Settles O5: the header byte is the encoding of the header read from it, and the operand bytes taken are those of the
instruction. -/
theorem encodeOfDecode : Obligations.EncodeOfDecode := by
  intro bytes i rest h
  cases bytes with
  | nil => cases h
  | cons b ops =>
    obtain ⟨hd, hhd, hlen, rfl, rfl⟩ := decode_cons_eq_ok_iff.1 h
    refine ⟨wellFormed_instr hd ops, ?_⟩
    rw [encode_eq, header_instr, operands_instr hlen, ← decodeHeader_eq_ok_iff.1 hhd, List.cons_append,
      List.take_append_drop]

/-- Settles O1: the decoder run on each word. -/
theorem sampleWordsDecode : Obligations.SampleWordsDecode :=
  ⟨rfl, rfl, rfl, rfl, rfl, rfl, rfl, rfl, rfl, rfl, rfl⟩

end Sys2Proof
end

section
/-! PROOFS. What each instruction does where it can complete (spec/41_alu.md, spec/42_jump.md, spec/43_mov.md), and where
its data addresses or its target fault (spec/60_exceptions.md R69). -/

namespace Sys2Proof.Machine

/-! ### Registers, flag and sequencing -/

/-- Settles O11: HALT has no check. -/
theorem haltCompletes : Obligations.HaltCompletes := fun _ _ => rfl

/-- Settles O12: the index is legal, so INC does not fault. -/
theorem incCompletes : Obligations.IncCompletes := by
  intro sm r s h
  obtain ⟨_, e⟩ := (execInc_cases r s).resolve_right (by omega)
  exact e

/-- A compare sets the flag or leaves it (R59). -/
theorem flagAfterCompare_eq_or (flag : Bool) (x v : Word) : flagAfterCompare flag x v = (flag || x == v) := by
  rw [Bool.eq_iff_iff, flagAfterCompare_eq_true_iff, Bool.or_eq_true, beq_iff_eq]

/-- Settles O13: the index is legal, so CMP does not fault. -/
theorem cmpCompletes : Obligations.CmpCompletes := by
  intro sm r v s h
  obtain ⟨_, e⟩ := (execCmp_cases r v s).resolve_right (by omega)
  rw [← flagAfterCompare_eq_or]
  exact e

/-- Settles O14: a set flag falls through, a clear one jumps to a target that lies in memory. -/
theorem jmpNeCompletes : Obligations.JmpNeCompletes := by
  intro sm a s h
  rcases execJmpNe_cases a s with ⟨hset, e⟩ | ⟨hclear, _, e⟩ | ⟨hclear, hout, _⟩
  · rw [if_pos hset]
    exact e
  · rw [if_neg (Bool.eq_false_iff.1 hclear)]
    exact e
  · rcases h with hset | hin
    · cases hclear.symm.trans hset
    · omega

/-- Settles O15: both indices are legal, so the move does not fault. -/
theorem movRRCompletes : Obligations.MovRRCompletes := by
  intro a b s ha hb
  obtain ⟨_, _, e⟩ := (execMovRR_cases a b s).resolve_right (by omega)
  exact e

/-! ### Memory -/

/-- Settles O16: the index and the range are legal, so the load does not fault. -/
theorem movLoadCompletes : Obligations.MovLoadCompletes := by
  intro r a s h hfit
  obtain ⟨_, _, e⟩ := (execMovLoad_cases r a s).resolve_right (by omega)
  rw [← loadedWord_readBytes_movw]
  exact e

/-- Settles O17: the index and the range are legal, so the store does not fault, and it is one write. -/
theorem movStoreCompletes : Obligations.MovStoreCompletes := by
  intro r a s h hm hfit
  obtain ⟨_, _, e⟩ := (execMovStore_cases r a s).resolve_right (by omega)
  refine ⟨_, e, rfl, ⟨rfl, rfl, rfl, rfl, rfl⟩, writeBytes_wf hm _ _,
    fun i hi => read_writeBytes_leBytes hm _ _ i s.regs[r] hi, fun k hk => read_writeBytes_outside s.mem _ k _ ?_⟩
  rwa [storedBytes_length]

/-- Settles O18: both ranges are legal, so the copy does not fault, and it is one write of bytes read before it. -/
theorem movMMCompletes : Obligations.MovMMCompletes := by
  intro d src s hm hsrc hd
  obtain ⟨_, _, e⟩ := (execMovMM_cases d src s).resolve_right (by omega)
  refine ⟨_, e, rfl, ⟨rfl, rfl, rfl, rfl, rfl⟩, writeBytes_wf hm _ _, fun i hi => ?_,
    fun k hk => read_writeBytes_outside s.mem _ k _ ?_⟩
  · have hlen : i < (s.mem.readBytes (effectiveAddress src) s.cfg.movw.bytes).length := by rwa [readBytes_length]
    exact (read_writeBytes_inside hm _ i _ hlen).trans (readBytes_getElem _ _ _ _ hlen)
  · rwa [readBytes_length]

theorem leByte_zero (v : Word) : leByte v 0 = v.setWidth 8 :=
  BitVec.setWidth_eq_extractLsb' (by omega) |>.symm

/-- A memory range that holds the low `MOVW` bytes of a word loads as the whole word or as its low byte. -/
theorem loadValue_of_stored {t : State} {a : Nat} {v : Word}
    (h : ∀ i, i < t.cfg.movw.bytes → t.mem.read (a + i) = leByte v i) :
    t.loadValue a = match t.cfg.movw with
      | .one => (v.setWidth 8).setWidth 32
      | .four => v := by
  unfold State.loadValue
  cases hw : t.cfg.movw with
  | one =>
    rw [hw] at h
    have hbyte : t.mem.read a = v.setWidth 8 := (h 0 Nat.one_pos).trans (leByte_zero v)
    exact congrArg (BitVec.setWidth 32) hbyte
  | four =>
    rw [hw] at h
    have hword : t.wordAt a = le32 (leByte v 0) (leByte v 1) (leByte v 2) (leByte v 3) := by
      rw [State.wordAt, ← h 0 (by decide), ← h 1 (by decide), ← h 2 (by decide), ← h 3 (by decide)]
      rfl
    exact hword.trans (le32_leByte v)

/-- Settles O10: the store leaves the bytes of the register in the range, and the load makes its word of them. -/
theorem storeThenLoadReadsBack : Obligations.StoreThenLoadReadsBack := by
  intro s r q a hr hq hm hfit
  obtain ⟨t, hstore, _, ⟨_, _, _, _, hcfg⟩, _, hbytes, _⟩ := movStoreCompletes r a s hr hm hfit
  rw [← hcfg] at hfit hbytes ⊢
  refine ⟨t, _, hstore, movLoadCompletes q a t hq hfit, ?_⟩
  exact (Vector.getElem_set_self hq).trans (loadValue_of_stored hbytes)

/-! ### A repeated INC -/

/-- Settles O19: each INC adds one to the register and leaves the others, the flag, memory and the status. -/
theorem repeatedIncAddsItsCount : Obligations.RepeatedIncAddsItsCount := by
  intro k sm r s h
  induction k generalizing s with
  | zero => exact ⟨s, rfl, (BitVec.add_zero _).symm, fun _ _ _ => rfl, rfl, rfl, rfl⟩
  | succ k ih =>
    obtain ⟨t, ht, hr, hothers, hflag, hmem, hstatus⟩ :=
      ih { s with regs := s.regs.set r (s.regs[r] + 1), pc := s.pc + 2 }
    refine ⟨t, ?_, ?_, fun j hj hne => ?_, hflag, hmem, hstatus⟩
    · rw [execTimes, incCompletes sm r s h]
      exact ht
    · rw [hr, Vector.getElem_set_self, BitVec.add_assoc, Nat.add_comm k 1, BitVec.ofNat_add]
      rfl
    · rw [hothers j hj hne, Vector.getElem_set_ne _ _ (Ne.symm hne)]

/-! ### Faults of an address -/

/-- Settles O21: a legal index leaves each meaning one way to end where its range or its target leaves memory. -/
theorem dataAddressTraps : Obligations.DataAddressTraps := by
  intro s sm r a d src hr
  have hload := execMovLoad_cases r a s
  have hstore := execMovStore_cases r a s
  have hcopy := execMovMM_cases d src s
  simp only [effectiveAddress] at hload hstore hcopy
  refine ⟨fun ha => ⟨?_, ?_⟩, fun hsrc => ?_, fun hsrc hd => ?_, fun hflag ha => ?_⟩
  · rcases hload with ⟨_, hin, _⟩ | ⟨hr', _⟩ | ⟨_, _, e⟩
    · omega
    · omega
    · exact e
  · rcases hstore with ⟨_, hin, _⟩ | ⟨hr', _⟩ | ⟨_, _, e⟩
    · omega
    · omega
    · exact e
  · rcases hcopy with ⟨hin, _⟩ | ⟨_, e⟩ | ⟨hin, _⟩
    · omega
    · exact e
    · omega
  · rcases hcopy with ⟨_, hin, _⟩ | ⟨hout, _⟩ | ⟨_, _, e⟩
    · omega
    · omega
    · exact e
  · rcases execJmpNe_cases a s with ⟨hset, _⟩ | ⟨_, hin, _⟩ | ⟨_, _, e⟩
    · cases hflag.symm.trans hset
    · omega
    · exact e

end Sys2Proof.Machine
end

section
/-! PROOFS. The step against the decoder (spec/40_sequencer_halt.md R54): what the decoder makes of the bytes from `pc`
on decides what the step does. -/

namespace Sys2Proof

/-! ### Why bytes do not decode -/

/-- The bytes name no instruction exactly when their header does not (R49). -/
theorem decode_cons_eq_header_error_iff {h : Byte} {ops : List Byte} {e : HeaderError} :
    decode (h :: ops) = .error (.header e) ↔ decodeHeader h = .error e := by
  cases hh : decodeHeader h with
  | error e' => simp [decode, hh]
  | ok hd => by_cases hlen : ops.length < hd.operandBytes <;> simp [decode, hh, hlen]

/-- The bytes end too early exactly when a known header has fewer operand bytes after it than it takes. -/
theorem decode_cons_eq_truncated_iff {h : Byte} {ops : List Byte} :
    decode (h :: ops) = .error .truncated ↔ ∃ hd, decodeHeader h = .ok hd ∧ ops.length < hd.operandBytes := by
  cases hh : decodeHeader h with
  | error e => simp [decode, hh]
  | ok hd => by_cases hlen : ops.length < hd.operandBytes <;> simp [decode, hh, hlen]

/-- A header reads no more bytes than it takes. -/
theorem instr_take {hd : Header} {ops : List Byte} (h : hd.operandBytes ≤ ops.length) :
    hd.instr (ops.take hd.operandBytes) = hd.instr ops := by
  have hback := instr_header_operands (wellFormed_instr hd ops) []
  rwa [header_instr, operands_instr h, List.append_nil] at hback

namespace Machine

/-! ### Bytes read from memory -/

theorem readBytes_succ (m : Memory) (a n : Nat) : m.readBytes a (n + 1) = m.read a :: m.readBytes (a + 1) n := by
  rw [Memory.readBytes, List.range_succ_eq_map, List.map_cons, List.map_map, Memory.readBytes]
  simp [Nat.add_right_comm, Nat.add_assoc, Function.comp_def]

theorem take_readBytes (m : Memory) (a : Nat) {k n : Nat} (h : k ≤ n) :
    (m.readBytes a n).take k = m.readBytes a k := by
  rw [Memory.readBytes, ← List.map_take, List.take_range, min_eq_left h, Memory.readBytes]

/-- What was written is read back. -/
theorem readBytes_writeBytes {m : Memory} (hm : m.wf) (a : Nat) (bs : List Byte) :
    (m.writeBytes a bs).readBytes a bs.length = bs := by
  refine List.ext_getElem (readBytes_length _ _ _) fun i hi hi' => ?_
  rw [readBytes_getElem, read_writeBytes_inside hm a i bs hi']

/-- The bytes to the end of memory begin at `pc`, where that is in memory. -/
theorem readBytes_to_end {s : State} (hpc : s.pc.toNat < s.cfg.memSize) :
    s.mem.readBytes s.pc.toNat (s.cfg.memSize - s.pc.toNat) =
      s.mem.read s.pc.toNat :: s.mem.readBytes (s.pc.toNat + 1) (s.cfg.memSize - (s.pc.toNat + 1)) := by
  rw [show s.cfg.memSize - s.pc.toNat = s.cfg.memSize - (s.pc.toNat + 1) + 1 by omega, readBytes_succ]

/-! ### The step on what decodes -/

/-- Bytes in memory that decode begin at a known header, whose operands lie in memory. -/
theorem fetch_of_decode {s : State} {n : Nat} {i : Instr} {rest : List Byte} (hrun : s.status = .run)
    (hn : s.pc.toNat + n ≤ s.cfg.memSize) (h : decode (s.mem.readBytes s.pc.toNat n) = .ok (i, rest)) :
    fetch s = .instr i := by
  cases n with
  | zero => cases h
  | succ n =>
    rw [readBytes_succ] at h
    obtain ⟨⟨op, sm⟩, hhd, hlen, rfl, -⟩ := decode_cons_eq_ok_iff.1 h
    have hat : s.AtHeader op sm := ⟨hrun, by omega, decodeHeader_eq_ok_iff.1 hhd⟩
    have htake := instr_take hlen
    rw [readBytes_length] at hlen
    rw [fetch_of_atHeader hat (by omega), ← htake, take_readBytes _ _ hlen]

/-- Settles O30: what decodes is fetched. -/
theorem stepRunsDecodedInstruction : Obligations.StepRunsDecodedInstruction := by
  intro s n i rest hrun hn h
  rw [step_of_run hrun, fetch_of_decode hrun hn h]

/-! ### The step on what does not decode -/

/-- A fault records the header byte at `pc`, whatever raises it. -/
theorem raise_eq_faultedWith (s : State) (cause : FaultCause) (value : Nat) :
    s.raise { cause := cause, value := BitVec.ofNat 32 value } = s.faultedWith s.headerByte cause value := rfl

/-- A header fetch outside memory raises `pc`. -/
theorem fetch_of_pc_outside {s : State} (hpc : s.cfg.memSize ≤ s.pc.toNat) :
    fetch s = .raised (addressRaise s.pc.toNat) := by
  have hread := memRead_error (s := s) (addr := s.pc.toNat) Nat.one_pos (by omega)
  rw [max_eq_left hpc] at hread
  rw [fetch, hread]

/-- Settles O34: the header fetch is the first access of a step, and no header byte is recorded. -/
theorem headerFetchOutsideMemoryRaises : Obligations.HeaderFetchOutsideMemoryRaises := by
  intro s hrun hpc
  have hheader : s.headerByte = 0 := if_neg (Nat.not_lt.2 hpc)
  rw [step_of_run hrun, fetch_of_pc_outside hpc]
  exact congrArg Host.Outcome.next ((raise_eq_faultedWith s _ _).trans (by rw [hheader]))

/-- Bytes to the end of memory that end too early raise the first address after them. -/
theorem step_of_decode_truncated {s : State} (hrun : s.status = .run)
    (h : decode (s.mem.readBytes s.pc.toNat (s.cfg.memSize - s.pc.toNat)) = .error .truncated) :
    step s = .next (s.faultedWith (if s.pc.toNat < s.cfg.memSize then s.mem.read s.pc.toNat else 0)
      .addressOutOfBounds (max s.pc.toNat s.cfg.memSize)) := by
  rcases Nat.lt_or_ge s.pc.toNat s.cfg.memSize with hpc | hpc
  · rw [readBytes_to_end hpc] at h
    obtain ⟨⟨op, sm⟩, hhd, hlen⟩ := decode_cons_eq_truncated_iff.1 h
    have hat : s.AtHeader op sm := ⟨hrun, hpc, decodeHeader_eq_ok_iff.1 hhd⟩
    rw [readBytes_length] at hlen
    rw [if_pos hpc, max_eq_right hpc.le, decodeHeader_eq_ok_iff.1 hhd]
    exact step_of_atHeader_outside hat (by omega)
  · rw [if_neg (Nat.not_lt.2 hpc), max_eq_left hpc]
    exact headerFetchOutsideMemoryRaises s hrun hpc

/-- Bytes to the end of memory that name no instruction begin in memory, with an unknown header. -/
theorem unknown_header_of_decode {s : State} {e : HeaderError}
    (h : decode (s.mem.readBytes s.pc.toNat (s.cfg.memSize - s.pc.toNat)) = .error (.header e)) :
    s.pc.toNat < s.cfg.memSize ∧ decodeHeader (s.mem.read s.pc.toNat) = .error e := by
  rcases Nat.lt_or_ge s.pc.toNat s.cfg.memSize with hpc | hpc
  · rw [readBytes_to_end hpc] at h
    exact ⟨hpc, decode_cons_eq_header_error_iff.1 h⟩
  · rw [Nat.sub_eq_zero_of_le hpc] at h
    cases h

/-- Such bytes fault with their offending nibble or spin, as `UNKNOWN_ENC` selects (R8). -/
theorem step_of_decode_unknown {s : State} {e : HeaderError} {cause : FaultCause} {n : BitVec 4}
    (hrun : s.status = .run)
    (h : decode (s.mem.readBytes s.pc.toNat (s.cfg.memSize - s.pc.toNat)) = .error (.header e))
    (he : headerRaise e = { cause := cause, value := n.setWidth 32 }) :
    step s = match s.cfg.unknownEnc with
      | .fault => .next (s.faultedWith (s.mem.read s.pc.toNat) cause n.toNat)
      | .spin => .next s := by
  obtain ⟨hpc, hhd⟩ := unknown_header_of_decode h
  cases hu : s.cfg.unknownEnc with
  | fault =>
    rw [step_unknown_header_of_fault hrun hpc hhd hu, he, raise_nibble hpc]
  | spin => exact step_unknown_header_of_spin hrun hpc hhd hu

/-- Settles O31: one lemma for each answer of the decoder. -/
theorem stepAgreesWithDecoder : Obligations.StepAgreesWithDecoder := by
  intro s hrun
  cases h : decode (s.mem.readBytes s.pc.toNat (s.cfg.memSize - s.pc.toNat)) with
  | ok p =>
    rcases Nat.lt_or_ge s.pc.toNat s.cfg.memSize with hpc | hpc
    · exact stepRunsDecodedInstruction s _ p.1 p.2 hrun (by omega) h
    · rw [Nat.sub_eq_zero_of_le hpc] at h
      cases h
  | error e =>
    cases e with
    | truncated => exact step_of_decode_truncated hrun h
    | header e =>
      cases e with
      | invalidOpcode op => exact step_of_decode_unknown hrun h rfl
      | invalidTransferMode sm => exact step_of_decode_unknown hrun h rfl

/-! ### States with and without a step -/

/-- Settles O35: a next state is one of a step from RUN. -/
theorem terminalStatesHaveNoStep : Obligations.TerminalStatesHaveNoStep := by
  refine fun s => ⟨fun h => by rw [step, h], fun h => by rw [step, h], ?_⟩
  rintro ⟨t, h⟩
  exact (step_cases h).1

/-- Settles O36: what is fetched is executed, raised or repeated, and each gives a next state. -/
theorem runningMachineAlwaysSteps : Obligations.RunningMachineAlwaysSteps :=
  fun _ => exists_step_next

/-- Settles O44: the target is `pc` itself, which lies in memory, so the jump leaves the state as it is. -/
theorem jumpToItselfRunsForever : Obligations.JumpToItselfRunsForever := by
  intro s sm hat hflag hin htarget
  have hstep : step s = execJmpNe s.pc s := by rw [step_of_atHeader_jmpNe hat hin, htarget]
  rcases execJmpNe_cases s.pc s with ⟨hset, _⟩ | ⟨_, _, e⟩ | ⟨_, hout, _⟩
  · cases hflag.symm.trans hset
  · exact runFor_of_step_self (hstep.trans e)
  · omega

/-! ### A word placed at `pc` -/

theorem length_tableBytes (nbits w : Nat) : (tableBytes nbits w).length = maxInstrBytes := by
  simp [tableBytes]

theorem decodeTableWord_eq_some_iff {nbits w : Nat} {i : Instr} :
    decodeTableWord nbits w = some i ↔ ∃ rest, decode (tableBytes nbits w) = .ok (i, rest) := by
  unfold decodeTableWord
  cases decode (tableBytes nbits w) with
  | ok p => simp [Prod.ext_iff]
  | error e => simp

/-- A word placed where memory has room for it is read back. -/
theorem readBytes_withFetchWord {s : State} (hm : s.mem.wf) (hfit : s.pc.toNat + maxInstrBytes ≤ s.cfg.memSize)
    (nbits w : Nat) :
    (s.withFetchWord nbits w).mem.readBytes s.pc.toNat maxInstrBytes = tableBytes nbits w := by
  have hlen := length_tableBytes nbits w
  have htake : (tableBytes nbits w).take (s.cfg.memSize - s.pc.toNat) = tableBytes nbits w :=
    List.take_of_length_le (by omega)
  have hback := readBytes_writeBytes hm s.pc.toNat (tableBytes nbits w)
  rw [hlen] at hback
  rw [State.withFetchWord, State.placeAtPc, htake, hback]

/-- Settles O51: the word placed is the bytes the step decodes. -/
theorem placedTableWordRuns : Obligations.PlacedTableWordRuns := by
  intro s nbits w i hrun hm hfit hdec
  obtain ⟨rest, hrest⟩ := decodeTableWord_eq_some_iff.1 hdec
  rw [← readBytes_withFetchWord hm hfit] at hrest
  exact stepRunsDecodedInstruction (s.withFetchWord nbits w) maxInstrBytes i rest hrun hfit hrest

end Machine

end Sys2Proof
end

section
/-! PROOFS. What an instruction leaves alone (spec/41_alu.md, spec/42_jump.md, spec/43_mov.md) and what the next fetch
sees of a store (spec/20_memory.md sections 7 and 8). -/

namespace Sys2Proof.Machine

/-! ### What a completed instruction writes -/

/-- Beside `pc`, a completed instruction writes one field at most, and that field as the tables of its operands say: the
register `destReg` names, the bytes from `storeTarget` on, the flag where `writesFlag`, the status by HALT. -/
inductive Effect (s : State) (i : Instr) : State → Prop where
  | halt (sm : Submode) (hi : i = .halt sm) : Effect s i s.halt
  | register (r : Nat) (hr : r < 7) (v : Word) (hdest : i.destReg = some r) :
      Effect s i ((s.writeReg ⟨r, hr⟩ v).advance i.length)
  | memory (a : Word) (bytes : List Byte) (htarget : i.storeTarget = some a)
      (hlen : bytes.length = s.cfg.movw.bytes) (hfit : effectiveAddress a + bytes.length ≤ s.cfg.memSize) :
      Effect s i (State.advance { s with mem := s.mem.writeBytes (effectiveAddress a) bytes } i.length)
  | flag (b : Bool) (hwrites : i.writesFlag = true) : Effect s i ((s.setFlag b).advance i.length)
  | advance : Effect s i (s.advance i.length)
  | jump (a : Word) (ha : a.toNat < s.cfg.memSize) : Effect s i (s.jump a)

theorem effect_of_completes {s t : State} {i : Instr} (h : Completes s t i) : Effect s i t := by
  cases i with
  | halt sm => obtain rfl := h; exact .halt sm rfl
  | inc sm r => obtain ⟨hr, rfl⟩ := h; exact .register r hr _ rfl
  | movRR a b => obtain ⟨_, hb, rfl⟩ := h; exact .register b hb _ rfl
  | movLoad r a => obtain ⟨hr, _, rfl⟩ := h; exact .register r hr _ rfl
  | movStore r a =>
    obtain ⟨_, hfit, rfl⟩ := h
    have hlen : (storedBytes s.cfg.movw s.regs[r]).length = s.cfg.movw.bytes := storedBytes_length _ _
    exact .memory a _ rfl hlen (by rwa [hlen])
  | movMM d src =>
    obtain ⟨_, hfit, rfl⟩ := h
    have hlen : (s.mem.readBytes (effectiveAddress src) s.cfg.movw.bytes).length = s.cfg.movw.bytes :=
      readBytes_length _ _ _
    exact .memory d _ rfl hlen (by rwa [hlen])
  | cmp sm r v => obtain ⟨_, rfl⟩ := h; exact .flag _ rfl
  | jmpNe sm a =>
    obtain ⟨_, rfl⟩ | ⟨_, ha, rfl⟩ := h
    · exact .advance
    · exact .jump a ha

/-- An instruction has its effect or takes a fault. -/
theorem effect_or_raise {s t : State} {i : Instr} (h : exec i s = .next t) : Effect s i t ∨ ∃ c, t = s.raise c := by
  rcases exec_cases h with hc | ⟨hc, _⟩
  · exact .inl (effect_of_completes hc)
  · exact .inr hc

/-! ### Frames -/

section Frames

variable {s t : State} {i : Instr}

theorem regs_of_effect (h : Effect s i t) {j : Nat} (hj : j < 7) (hne : i.destReg ≠ some j) :
    t.regs[j] = s.regs[j] := by
  cases h with
  | register r hr v hdest =>
    have hrj : r ≠ j := fun e => hne (e ▸ hdest)
    exact Vector.getElem_set_ne hr hj hrj
  | halt | memory | flag | advance | jump => rfl

theorem mem_of_effect (h : Effect s i t) (hi : i.storeTarget = none) : t.mem = s.mem := by
  cases h with
  | memory a bytes htarget hlen hfit => cases hi.symm.trans htarget
  | halt | register | flag | advance | jump => rfl

/-- A store leaves every byte outside the `MOVW` bytes from its target on. -/
theorem read_of_effect (h : Effect s i t) {a : Word} (hi : i.storeTarget = some a) {k : Nat}
    (hk : ¬ (effectiveAddress a ≤ k ∧ k < effectiveAddress a + s.cfg.movw.bytes)) : t.mem.read k = s.mem.read k := by
  cases h with
  | memory a' bytes htarget hlen hfit =>
    cases hi.symm.trans htarget
    rw [← hlen] at hk
    exact read_writeBytes_outside s.mem _ k bytes hk
  | halt | register | flag | advance | jump => rfl

theorem cfg_of_effect (h : Effect s i t) : t.cfg = s.cfg := by
  cases h <;> rfl

theorem fault_of_effect (h : Effect s i t) : t.fault = s.fault := by
  cases h <;> rfl

theorem status_of_effect (h : Effect s i t) : t.status = s.status ∨ (t.status = .halted ∧ ∃ sm, i = .halt sm) := by
  cases h with
  | halt sm hi => exact .inr ⟨rfl, sm, hi⟩
  | register | memory | flag | advance | jump => exact .inl rfl

end Frames

/-- Settles O39: the effect of an instruction is confined to what its tables name, and a fault writes the status and the
record alone. -/
theorem instructionFrame : Obligations.InstructionFrame := by
  intro i s t h
  rcases effect_or_raise h with he | ⟨c, rfl⟩
  · exact ⟨fun _ hj => regs_of_effect he hj, flag_of_exec h, fun hi _ => by rw [mem_of_effect he hi],
      fun _ hi _ => read_of_effect he hi, cfg_of_effect he, fun _ _ => fault_of_effect he,
      (status_of_effect he).imp_right .inr⟩
  · exact ⟨fun _ _ _ => rfl, fun _ => rfl, fun _ _ => rfl, fun _ _ _ _ => rfl, rfl,
      fun _ ht => absurd rfl ht, .inr (.inl rfl)⟩

/-! ### The next fetch -/

theorem byteAfter_movStore (s : State) {r : Nat} (hr : r < 7) (a : Word) (k : Nat) :
    s.byteAfter (.movStore r a) k =
      if effectiveAddress a ≤ k ∧ k < effectiveAddress a + s.cfg.movw.bytes then
        s.regs[r].extractLsb' (8 * (k - effectiveAddress a)) 8
      else s.mem.read k := by
  by_cases hk : effectiveAddress a ≤ k ∧ k < effectiveAddress a + s.cfg.movw.bytes
  · rw [State.byteAfter, dif_pos ⟨hr, hk⟩, if_pos hk]
  · rw [State.byteAfter, dif_neg fun h => hk h.2, if_neg hk]

/-- A completed instruction leaves the bytes its rule names (R66, R67). -/
theorem read_of_completes {s t : State} {i : Instr} (hm : s.mem.wf) (h : Completes s t i) (k : Nat) :
    t.mem.read k = s.byteAfter i k := by
  cases hi : i.storeTarget with
  | none => rw [mem_of_effect (effect_of_completes h) hi, byteAfter_of_no_store hi]
  | some a =>
    cases i with
    | movStore r a =>
      obtain ⟨hr, _, rfl⟩ := h
      have hread := read_writeBytes hm (effectiveAddress a) k (storedBytes_length s.cfg.movw s.regs[r])
        (getElem_leBytes s.cfg.movw.bytes s.regs[r])
      rw [byteAfter_movStore s hr]
      exact hread
    | movMM d src =>
      obtain ⟨_, _, rfl⟩ := h
      exact read_writeBytes hm (effectiveAddress d) k (readBytes_length _ _ _)
        (readBytes_getElem s.mem (effectiveAddress src) s.cfg.movw.bytes)
    | halt | inc | movRR | movLoad | cmp | jmpNe => cases hi

/-- Settles O40: the bytes from the new `pc` on are those `byteAfter` names, and the next step is what the decoder says
of them. -/
theorem storeIsSeenByNextFetch : Obligations.StoreIsSeenByNextFetch := by
  intro s t n i rest hm hn hdec hstep hrun p
  obtain ⟨hsrun, _⟩ := step_cases hstep
  have hc : Completes s t i :=
    completes_of_step hstep (fetch_of_decode hsrun hn hdec) (by simp [hrun])
  have hcfg : t.cfg = s.cfg := cfg_of_effect (effect_of_completes hc)
  have hread (k : Nat) : s.byteAfter i k = t.mem.read k := (read_of_completes hm hc k).symm
  simp only [hread, ← hcfg]
  exact stepAgreesWithDecoder t hrun

end Sys2Proof.Machine
end

section
/-! PROOFS. The machine's invariant (spec/10_state.md sections 3, 7 and 8): reset gives it, every step keeps it. -/

namespace Sys2Proof.Machine

/-! ### Reset -/

/-- Settles O48: reset writes every field the invariant speaks of but the parameters and memory. -/
theorem resetRestoresInvariant : Obligations.ResetRestoresInvariant := fun _ hcfg hm hin =>
  { config := hcfg
    canonical := hm
    within := hin
    pcInRange := Nat.zero_le _
    recordClear := fun _ => rfl
    recordTrue := nofun
    haltedAtHalt := nofun }

/-- Settles O46: the machine after reset is a reset of itself, its memory lists nothing and its parameters are the
defaults. -/
theorem resetMeetsInvariant : Obligations.ResetMeetsInvariant :=
  resetRestoresInvariant State.reset (by decide) ⟨.nil, nofun⟩ nofun

/-! ### A fault -/

/-- Taking a fault with a legal value keeps the invariant. -/
theorem inv_raise {s : State} {c : Raise} (hinv : s.Inv) (hc : c.Legal s.cfg.memSize) : (s.raise c).Inv where
  config := hinv.config
  canonical := hinv.canonical
  within := hinv.within
  pcInRange := hinv.pcInRange
  recordClear h := absurd rfl h
  recordTrue _ := ⟨rfl, rfl, hc⟩
  haltedAtHalt := nofun

/-! ### A completed instruction -/

section Completed

variable {s t : State} {i : Instr}

/-- Memory keeps its canonical form and its bound: what is stored ends in memory. -/
theorem mem_inv_of_effect (hinv : s.Inv) (h : Effect s i t) : t.mem.wf ∧ t.mem.within s.cfg.memSize := by
  cases h with
  | memory a bytes htarget hlen hfit =>
    exact ⟨writeBytes_wf hinv.canonical _ bytes, writeBytes_within hinv.within bytes hfit⟩
  | halt | register | flag | advance | jump => exact ⟨hinv.canonical, hinv.within⟩

/-- `pc` keeps its bound: an instruction passed ends in memory, and so does a jump (R18, R61). -/
theorem pc_le_of_effect (hinv : s.Inv) (hf : fetch s = .instr i) (h : Effect s i t) : t.pc.toNat ≤ s.cfg.memSize := by
  have hadvance : (s.advance i.length).pc.toNat ≤ s.cfg.memSize :=
    (toNat_pc_of_advance hinv.config (fetched_in_memory hf) rfl).2
  cases h with
  | halt => exact hinv.pcInRange
  | register | memory | flag | advance => exact hadvance
  | jump a ha => exact ha.le

/-- A HALT is fetched from its header (R56). -/
theorem header_of_fetch_halt {sm : Submode} (hf : fetch s = .instr (.halt sm)) :
    s.pc.toNat < s.cfg.memSize ∧ decodeHeader (s.mem.read s.pc.toNat) = .ok ⟨.halt, sm⟩ := by
  rcases fetch_cases s with ⟨_, e⟩ | ⟨_, err, _, e⟩ | ⟨_, _, _, _, e⟩ | ⟨hd, hhd, hin, e⟩
  · cases hf.symm.trans e
  · exact absurd (e.symm.trans hf) (unknownHeader_ne_instr _ err _)
  · cases hf.symm.trans e
  · have hheader := congrArg Instr.header (Fetched.instr.inj (hf.symm.trans e))
    rw [header_instr] at hheader
    exact ⟨by omega, by rw [hhd, ← hheader]; rfl⟩

/-- In RUN only a HALT ends in HALTED. -/
theorem eq_halt_of_effect (hrun : s.status = .run) (h : Effect s i t) (ht : t.status = .halted) :
    t = s.halt ∧ ∃ sm, i = .halt sm := by
  cases h with
  | halt sm hi => exact ⟨rfl, sm, hi⟩
  | register | memory | flag | advance | jump => cases hrun.symm.trans ht

/-- What a fetched instruction leaves meets the invariant. -/
theorem inv_of_effect (hinv : s.Inv) (hrun : s.status = .run) (hf : fetch s = .instr i) (h : Effect s i t) :
    t.Inv := by
  have hcfg : t.cfg = s.cfg := cfg_of_effect h
  obtain ⟨hm, hin⟩ := mem_inv_of_effect hinv h
  refine
    { config := hcfg ▸ hinv.config
      canonical := hm
      within := hcfg ▸ hin
      pcInRange := hcfg ▸ pc_le_of_effect hinv hf h
      recordClear := fun _ => (fault_of_effect h).trans (hinv.recordClear (by simp [hrun]))
      recordTrue := fun ht => ?_
      haltedAtHalt := fun ht => ?_ }
  · rcases status_of_effect h with hs | ⟨hs, _⟩
    · cases (ht.symm.trans hs).trans hrun
    · cases ht.symm.trans hs
  · obtain ⟨rfl, sm, rfl⟩ := eq_halt_of_effect hrun h ht
    obtain ⟨hpc, hheader⟩ := header_of_fetch_halt hf
    exact ⟨hpc, sm, hheader⟩

end Completed

/-- Settles O45: a step takes a legal fault, leaves the effect of a fetched instruction, or changes nothing. -/
theorem everyStepKeepsInvariant : Obligations.EveryStepKeepsInvariant := by
  intro s t hinv h
  obtain ⟨hrun, ⟨i, hf, he⟩ | ⟨c, hf, rfl⟩ | ⟨_, rfl⟩⟩ := step_cases h
  · rcases completes_or_execRaises he with hc | ⟨c, hc, rfl⟩
    · exact inv_of_effect hinv hrun hf (effect_of_completes hc)
    · exact inv_raise hinv (legal_of_execRaises hinv.config hf hc)
  · exact inv_raise hinv (legal_of_fetch_raised hinv.config hf)
  · exact hinv

end Sys2Proof.Machine
end

section
/-! PROOFS. Memory as data (spec/20_memory.md section 1) and the host's moves on it (spec/10_state.md section 10,
spec/70_reset_and_hazards.md section 2). -/

namespace Sys2Proof.Machine

/-! ### Canonical memories that read alike -/

/-- A canonical memory gives each listed byte at its address. -/
theorem read_of_mem {m : Memory} (hm : m.wf) {c : Host.Cell} (hc : c ∈ m) : m.read c.1 = c.2 := by
  obtain ⟨hsorted, -⟩ := hm
  induction m with
  | nil => cases hc
  | cons d m ih =>
    obtain ⟨hd, hsorted⟩ := List.pairwise_cons.1 hsorted
    rcases List.mem_cons.1 hc with rfl | hc
    · exact if_pos rfl
    · exact (if_neg (hd c hc).ne').trans (ih hc hsorted)

/-- The entries of a canonical memory are the bytes that do not read as unlisted ones do. -/
theorem mem_iff_read {m : Memory} (hm : m.wf) (c : Host.Cell) :
    c ∈ m ↔ c.2 ≠ unlistedByte ∧ m.read c.1 = c.2 := by
  have ⟨_, hlisted⟩ := hm
  constructor
  · exact fun hc => ⟨hlisted c hc, read_of_mem hm hc⟩
  · rintro ⟨hne, hread⟩
    by_contra hc
    refine hne (hread.symm.trans (read_of_not_listed m c.1 fun d hd hdc => hc ?_))
    have hval : d.2 = c.2 := by rw [← read_of_mem hm hd, hdc, hread]
    rwa [← Prod.ext hdc hval]

/-- Settles O9: memories that read alike have the same entries, and both list them by rising address. -/
theorem equalMemoriesAreEqualData : Obligations.EqualMemoriesAreEqualData := by
  intro m m' hm hm' hread
  have hentries (c : Host.Cell) : c ∈ m ↔ c ∈ m' := by
    rw [mem_iff_read hm, mem_iff_read hm', hread]
  obtain ⟨hsorted, _⟩ := hm
  obtain ⟨hsorted', _⟩ := hm'
  have : Std.Irrefl fun c d : Host.Cell => c.1 < d.1 := ⟨fun c => Nat.lt_irrefl c.1⟩
  have : Std.Antisymm fun c d : Host.Cell => c.1 < d.1 := ⟨fun c d h h' => absurd h' (Nat.lt_asymm h)⟩
  exact hsorted.eq_of_mem_iff hsorted' hentries

/-! ### The host -/

/-- Settles O49: a load is a reset and one write, and reset restores the invariant of a memory in form. -/
theorem loadedImageIsInMemory : Obligations.LoadedImageIsInMemory := by
  intro s base bytes hcfg hm hin
  refine ⟨fun hfit => ?_, fun hout => if_neg (Nat.not_le.2 hout)⟩
  refine ⟨_, if_pos hfit, fun i hi => read_writeBytes_inside hm base i bytes hi,
    fun k hk => read_writeBytes_outside s.mem base k bytes hk, rfl, ?_⟩
  exact resetRestoresInvariant { s with mem := s.mem.writeBytes base bytes } hcfg (writeBytes_wf hm base bytes)
    (writeBytes_within hin bytes hfit)

/-- The host has its moves in reset and outside RUN (R26). -/
theorem hostMayAccess_iff (s : State) (held : Bool) : s.hostMayAccess held = true ↔ held = true ∨ s.status ≠ .run := by
  cases hs : s.status <;> simp [State.hostMayAccess, State.terminal, hs]

section HostMoves

variable {s : State} {held : Bool} {a : Nat}

/-- The host has no move at an address outside memory, nor while it may not touch memory. -/
theorem host_move_none (h : ¬ (s.hostMayAccess held = true ∧ a < s.cfg.memSize)) (b : Byte) :
    s.hostWrite held a b = none ∧ s.hostRead held a = none := ⟨if_neg h, if_neg h⟩

theorem hostRead_some (h : s.hostMayAccess held = true) (ha : a < s.cfg.memSize) :
    s.hostRead held a = some (s.mem.read a) := if_pos ⟨h, ha⟩

theorem hostWrite_some (h : s.hostMayAccess held = true) (ha : a < s.cfg.memSize) (b : Byte) :
    s.hostWrite held a b = some { s with mem := s.mem.write a b } := if_pos ⟨h, ha⟩

end HostMoves

/-- Settles O50: the two moves have one guard, and a write keeps it. -/
theorem hostAccessesOnlyOutsideARun : Obligations.HostAccessesOnlyOutsideARun := by
  intro s held a b hm
  refine ⟨fun hrun hheld => ?_, fun h => ⟨fun hout => ?_, fun hin => ?_⟩⟩
  · have hmay : ¬ s.hostMayAccess held = true := by simp [hostMayAccess_iff, hrun, hheld]
    exact host_move_none (fun h => hmay h.1) b
  · exact host_move_none (fun h => Nat.not_lt.2 hout h.2) b
  · have hmay := (hostMayAccess_iff s held).2 h
    have hself : (s.mem.write a b).read a = b := read_write_self hm a b
    refine ⟨hostRead_some hmay hin, _, hostWrite_some hmay hin b, rfl, write_wf hm a b, hself,
      fun k hk => read_write_of_ne s.mem a k b hk, ?_⟩
    exact (hostRead_some (s := { s with mem := s.mem.write a b }) hmay hin).trans (congrArg some hself)

end Sys2Proof.Machine
end
